-- ==== Sys2Proof/Word.lean ====
section
/-! DEFINITION. The machine's words: the 8-bit byte and the 9-bit address (00_scope.md R7, R9; 10_state.md R34). -/

namespace Sys2Proof

/-- An 8-bit value: a register, a memory cell, an opcode or operand byte (00_scope.md R7, 20_memory.md R48). -/
abbrev Byte := BitVec 8

/-- A 9-bit value: the program counter and the fault record's `pc` and `addr` (00_scope.md R9, 10_state.md R34). -/
abbrev Addr := BitVec 9

end Sys2Proof
end

