-- ==== Sys2Proof/Config.lean ====
section
/-! DEFINITION. What one machine fixes: the sizes of 00_scope.md R6 to R8, and the two parameters `OPCODE_MAP` (R10)
and `SPEC_FETCH_OOB` (R11). Their default values stand in Decode.lean. -/

namespace Sys2Proof

/-- `MEM_SIZE`: addresses 0 to 255 (00_scope.md R6). -/
def Config.memSize : Nat := 256

/-- `NREG`: registers R0 to R7 (00_scope.md R7). -/
def Config.nreg : Nat := 8

/-- The index of a register that exists, 0 to 7 (10_state.md R21). -/
abbrev RegIdx := Fin 8

/-- `SP_INDEX`: register 7 is the stack pointer (00_scope.md R8, 10_state.md R22). -/
def Config.spIndex : RegIdx := 7

/-- `SP_RESET` (00_scope.md R8). -/
def Config.spReset : Byte := 0xF4#8

/-- `SPEC_FETCH_OOB`: what a speculative operand read beyond memory does (00_scope.md R11, 40_execute_cycle.md R84). -/
inductive SpecFetchOob where
  /-- the read faults in the fetch -/
  | fault
  /-- the fault waits until a handler uses the operand -/
  | ignore
  deriving DecidableEq, Repr

/-- The nine mnemonics (00_scope.md R2, 30_encoding.md R66). -/
inductive Mnemonic where
  | hlt
  | ldi
  | prn
  | add
  | mul
  | push
  | pop
  | call
  | ret
  deriving DecidableEq, Repr

/-- `OPCODE_MAP`: the opcode byte of each mnemonic, a parameter (00_scope.md R10). -/
structure OpcodeMap where
  hlt : Byte
  ldi : Byte
  prn : Byte
  add : Byte
  mul : Byte
  push : Byte
  pop : Byte
  call : Byte
  ret : Byte
  deriving DecidableEq, Repr

/-- The two parameters a model takes (00_scope.md §4). -/
structure Config where
  opcodeMap : OpcodeMap
  specFetchOob : SpecFetchOob
  deriving DecidableEq, Repr

end Sys2Proof
end

