-- ==== Sys2Proof/Syntax.lean ====
section
/-! DEFINITION. The nine instructions as syntax, one constructor per row of opcode_table.json (30_encoding.md R63, R66). -/

namespace Sys2Proof

/-- An instruction with its operand bytes. A register operand is a whole byte (30_encoding.md R64): one of 8 or more is
an encoding that exists and faults when used, so it is representable here. -/
inductive Instr where
  /-- HLT (R100) -/
  | hlt
  /-- LDI reg, immediate (R101) -/
  | ldi (reg imm : Byte)
  /-- PRN reg (R102) -/
  | prn (reg : Byte)
  /-- ADD regA, regB (R113) -/
  | add (regA regB : Byte)
  /-- MUL regA, regB (R114) -/
  | mul (regA regB : Byte)
  /-- PUSH reg (R121) -/
  | push (reg : Byte)
  /-- POP reg (R122) -/
  | pop (reg : Byte)
  /-- CALL reg (R130) -/
  | call (reg : Byte)
  /-- RET (R131) -/
  | ret
  deriving DecidableEq, Repr

namespace Instr

/-- The mnemonic an instruction is written with. -/
def mnemonic : Instr → Mnemonic
  | hlt => .hlt
  | ldi _ _ => .ldi
  | prn _ => .prn
  | add _ _ => .add
  | mul _ _ => .mul
  | push _ => .push
  | pop _ => .pop
  | call _ => .call
  | ret => .ret

/-- The operand bytes in encoding order (30_encoding.md R63). -/
def operands : Instr → List Byte
  | hlt => []
  | ldi r v => [r, v]
  | prn r => [r]
  | add a b => [a, b]
  | mul a b => [a, b]
  | push r => [r]
  | pop r => [r]
  | call r => [r]
  | ret => []

/-- The operand bytes that are register indices (30_encoding.md R63, R64); LDI's immediate is none (R65). -/
def regOperands : Instr → List Byte
  | hlt => []
  | ldi r _ => [r]
  | prn r => [r]
  | add a b => [a, b]
  | mul a b => [a, b]
  | push r => [r]
  | pop r => [r]
  | call r => [r]
  | ret => []

end Instr

end Sys2Proof
end

