-- ==== Sys2Proof/WellFormed.lean ====
section
/-! DEFINITION. Well-formed instructions: every register operand names a register that exists (30_encoding.md R64, R69). -/

namespace Sys2Proof

/-- A register operand byte in [0, 8) (10_state.md R27). -/
def regOperandOk (b : Byte) : Bool := decide (b.toNat < Config.nreg)

/-- Every register operand is in [0, 8). An ill-formed instruction has an encoding too; executing it takes the
OutOfBounds fault (30_encoding.md R69). -/
def Instr.wellFormed (i : Instr) : Bool := i.regOperands.all regOperandOk

end Sys2Proof
end

