-- ==== Sys2Proof/Decode.lean ====
section
/-! DEFINITION. The opcode byte's fields, the opcode map with its validity and its default, the decoder from the three
latched bytes, and after it the encoder (30_encoding.md; 40_execute_cycle.md R84 to R87). -/

namespace Sys2Proof

/-! ### The fields of the opcode byte (30_encoding.md R61, R62) -/

/-- `opc`, bits 7:6 of the opcode byte: the operand count. -/
def opcField (ir : Byte) : Nat := (ir.extractLsb' 6 2).toNat

/-- `pcset`, bit 4 of the opcode byte: the handler sets PC itself. -/
def pcsetField (ir : Byte) : Bool := ir.getLsbD 4

/-! ### The opcode map (30_encoding.md R66, R67) -/

/-- The nine mnemonics in the order of the source's handler table. -/
def Mnemonic.all : List Mnemonic := [.hlt, .ldi, .prn, .add, .mul, .push, .pop, .call, .ret]

/-- The operand count of each mnemonic, R66's normative column. -/
def Mnemonic.operandCount : Mnemonic → Nat
  | .hlt => 0
  | .ldi => 2
  | .prn => 1
  | .add => 2
  | .mul => 2
  | .push => 1
  | .pop => 1
  | .call => 1
  | .ret => 0

/-- The PC-setting flag of each mnemonic, R66's normative column: exactly CALL and RET. -/
def Mnemonic.pcSetting : Mnemonic → Bool
  | .hlt => false
  | .ldi => false
  | .prn => false
  | .add => false
  | .mul => false
  | .push => false
  | .pop => false
  | .call => true
  | .ret => true

/-- The opcode byte a map gives a mnemonic. -/
def OpcodeMap.byteOf (m : OpcodeMap) : Mnemonic → Byte
  | .hlt => m.hlt
  | .ldi => m.ldi
  | .prn => m.prn
  | .add => m.add
  | .mul => m.mul
  | .push => m.push
  | .pop => m.pop
  | .call => m.call
  | .ret => m.ret

/-- R67: the nine bytes are distinct, and each agrees with its mnemonic's operand count and PC-setting flag. -/
abbrev OpcodeMap.Valid (m : OpcodeMap) : Prop :=
  (Mnemonic.all.map m.byteOf).Nodup ∧
    ∀ a ∈ Mnemonic.all, opcField (m.byteOf a) = a.operandCount ∧ pcsetField (m.byteOf a) = a.pcSetting

/-- PRESUMED (log entry 1): the default values, the LS-8 encodings, which 30_encoding.md R66 marks as general knowledge
and not the source's. A statement that names this map is about this map; the model's other definitions take any map. -/
def OpcodeMap.default : OpcodeMap where
  hlt := 0b00000001#8
  ldi := 0b10000010#8
  prn := 0b01000111#8
  add := 0b10100000#8
  mul := 0b10100010#8
  push := 0b01000101#8
  pop := 0b01000110#8
  call := 0b01010000#8
  ret := 0b00010001#8

/-- The machine `step` runs: the default map, and `SPEC_FETCH_OOB = fault` (00_scope.md R10, R11; log entries 1 and 2). -/
def Config.default : Config where
  opcodeMap := OpcodeMap.default
  specFetchOob := .fault

/-- The lookup of the opcode byte, a match of all 8 bits (40_execute_cycle.md R86, 30_encoding.md R68). -/
def OpcodeMap.lookup (m : OpcodeMap) (ir : Byte) : Option Mnemonic :=
  Mnemonic.all.find? fun a => m.byteOf a == ir

/-! ### The latches and the decoder -/

/-- An operand byte latched by the fetch: a byte, or `ABSENT(a)` where `a` lies beyond memory (40_execute_cycle.md R84). -/
inductive Operand where
  | byte (v : Byte)
  | absent (a : Addr)
  deriving DecidableEq, Repr

/-- The three values latched at fetch, alive inside one step only (10_state.md R37, 40_execute_cycle.md R83). -/
structure Latches where
  ir : Byte
  opA : Operand
  opB : Operand
  deriving DecidableEq, Repr

/-- Why the latched bytes give no instruction: an opcode with no handler (R86), or an operand that the handler uses and
that lies beyond memory (R84). -/
inductive DecodeError where
  | unknownOpcode (ir : Byte)
  | absentOperand (a : Addr)
  deriving DecidableEq, Repr

/-- `UseOperand` of 40_execute_cycle.md R84. -/
def useOperand : Operand → Except DecodeError Byte
  | .byte v => .ok v
  | .absent a => .error (.absentOperand a)

/-- The operand kinds of each mnemonic's format (30_encoding.md R63), with every operand byte the handler is given
passed through `UseOperand` in the order of its pseudocode: OP_A, then OP_B, before any register check
(40_execute_cycle.md R87 and the handler rules; DEDUCED, log entry 10). -/
def decodeOperands (l : Latches) : Mnemonic → Except DecodeError Instr
  | .hlt => .ok .hlt
  | .ldi => do
    let reg ← useOperand l.opA
    let imm ← useOperand l.opB
    return .ldi reg imm
  | .prn => do
    let reg ← useOperand l.opA
    return .prn reg
  | .add => do
    let regA ← useOperand l.opA
    let regB ← useOperand l.opB
    return .add regA regB
  | .mul => do
    let regA ← useOperand l.opA
    let regB ← useOperand l.opB
    return .mul regA regB
  | .push => do
    let reg ← useOperand l.opA
    return .push reg
  | .pop => do
    let reg ← useOperand l.opA
    return .pop reg
  | .call => do
    let reg ← useOperand l.opA
    return .call reg
  | .ret => .ok .ret

/-- The decoder, total on any latched bytes: the lookup, then the operands (40_execute_cycle.md R86, R87). -/
def decode (m : OpcodeMap) (l : Latches) : Except DecodeError Instr :=
  match m.lookup l.ir with
  | none => .error (.unknownOpcode l.ir)
  | some a => decodeOperands l a

/-- The latches a fetch fills from bytes at ascending addresses; bytes that are not listed are 0. -/
def Latches.ofBytes (bytes : List Byte) : Latches where
  ir := bytes.getD 0 0
  opA := .byte (bytes.getD 1 0)
  opB := .byte (bytes.getD 2 0)

/-- The instruction's bytes under the opcode table's numbering: bit 0 is the least significant bit of the opcode byte, the
second byte is bits 15 to 8, the third bits 23 to 16; bits at and above `nbits` are 0. -/
def tableWordBytes (nbits w : Nat) : List Byte :=
  let v := w % 2 ^ nbits
  [BitVec.ofNat 8 v, BitVec.ofNat 8 (v / 2 ^ 8), BitVec.ofNat 8 (v / 2 ^ 16)]

/-- What the decoder reads, under the default map, from an instruction given as a number of the opcode table. -/
def decodeTableWord (nbits w : Nat) : Option Instr :=
  match decode OpcodeMap.default (Latches.ofBytes (tableWordBytes nbits w)) with
  | .ok i => some i
  | .error _ => none

/-! ### The encoder (30_encoding.md R63, R73) -/

/-- The bytes an instruction assembles to, at ascending addresses. -/
def encode (m : OpcodeMap) (i : Instr) : List Byte := m.byteOf i.mnemonic :: i.operands

/-- The length of an instruction in bytes (30_encoding.md R60, R70). -/
def Instr.length (i : Instr) : Nat := i.mnemonic.operandCount + 1

end Sys2Proof
end

