-- ==== Sys2Proof/Machine/State.lean ====
section
/-! DEFINITION. The state of the core as plain data (10_state.md R20), the state after reset (70_reset_and_hazards.md R170),
the reasons a step raises a fault (60_exceptions.md R140), and the outcomes of the host's interface. -/

namespace Sys2Proof.Machine

/-- Memory: the cells that are not 0, at strictly rising addresses. An unlisted cell reads 0, the value every cell has
after reset (20_memory.md R40, R44). -/
abbrev Memory := List Host.Cell

/-- The execution state (10_state.md R33). -/
inductive ExecState where
  | stopped
  | running
  | faulted
  deriving DecidableEq, Repr

/-- The kind in the fault record (60_exceptions.md R140). -/
inductive FaultCode where
  | none
  | unknownOpcode
  | outOfBounds
  | unsupportedAlu
  deriving DecidableEq, Repr

/-- The space an OutOfBounds fault names (10_state.md R34). -/
inductive Space where
  | memory
  | register
  deriving DecidableEq, Repr

/-- The fault record (10_state.md R34). -/
structure FaultRecord where
  code : FaultCode
  pc : Addr
  opcode : Byte
  space : Space
  addr : Addr
  deriving DecidableEq, Repr

/-- What an action of a step raises (60_exceptions.md R140). Raising it is not an outcome of the model: the step then TAKES
the fault, which is a next state (`State.takeFault`, 40_execute_cycle.md R90). -/
inductive Raise where
  /-- the lookup failed (R141) -/
  | unknownOpcode
  /-- an access beyond memory, or a register index of 8 or more (R142) -/
  | outOfBounds (space : Space) (addr : Addr)
  /-- the ALU was asked for an operation it lacks (R143) -/
  | unsupportedAlu
  deriving DecidableEq, Repr

/-- The complete architectural state, element by element as 10_state.md R20 lists it. -/
structure State where
  /-- `M[0..255]` (20_memory.md R40) -/
  mem : Memory
  /-- `x[0..7]` (R21) -/
  regs : Vector Byte 8
  /-- `PC` (R28, R29) -/
  pc : Addr
  /-- `running` (R32) -/
  running : Bool
  /-- `state` (R33) -/
  execState : ExecState
  /-- `fault` (R34) -/
  fault : FaultRecord
  /-- `out`, oldest byte first (R38) -/
  out : List Byte
  deriving DecidableEq, Repr

/-- The fault record at reset: code 0 and the other fields 0 (10_state.md R34). DESIGN CHOICE (log entry 9): the value of
`space` that stands for 0 is `memory`. -/
def FaultRecord.reset : FaultRecord where
  code := .none
  pc := 0#9
  opcode := 0#8
  space := .memory
  addr := 0#9

/-- The state after reset (70_reset_and_hazards.md R170). -/
def State.reset : State where
  mem := []
  regs := (Vector.replicate 8 0#8).set 7 Config.spReset
  pc := 0#9
  running := false
  execState := .stopped
  fault := FaultRecord.reset
  out := []

/-- Reasons for a step to stop the MODEL with no next state. There is none, so this type has no constructor: each of the
spec's three fault kinds has an entry the spec describes (40_execute_cycle.md R90), and the step takes it as a next state
in `ExecState.faulted`. Nobody raises it; safe (log entry 4). -/
inductive Fault where
  deriving DecidableEq, Repr

/-- Reasons for the model to have no answer. -/
inductive Refusal where
  /-- An instruction with no meaning yet, raised by its arm of `exec` alone; safe. No arm of this model raises it. -/
  | notModelled (mnemonic : String)
  /-- A load request while the core is not Stopped, raised by the load port alone and by no step: the host may load in
  Stopped only, and the spec gives such a request no effect (70_reset_and_hazards.md R173, R177; log entry 8); safe. -/
  | loadWhileNotStopped
  deriving DecidableEq, Repr

/-- What a step, a meaning or a host request answers. -/
abbrev Result := Host.Outcome State Fault Refusal

end Sys2Proof.Machine
end

