-- ==== Sys2Proof/Machine/Ops.lean ====
section
/-! DEFINITION. The named operations over memory and registers, through which every access goes (20_memory.md R43), and
taking a fault (40_execute_cycle.md R90). There is no return from a fault to stand beside it: only reset leaves the state a
fault enters (60_exceptions.md R151; `hostReset` in HostPort.lean). -/

namespace Sys2Proof.Machine

/-! ### Arithmetic -/

/-- `trunc8(v) = v mod 256`, the mathematical modulus for a negative value too (00_scope.md R12). -/
def trunc8 (v : Int) : Byte := BitVec.ofInt 8 v

/-- A memory address or register index as the fault record holds it, in 9 bits (10_state.md R34). -/
def recordAddr (a : Nat) : Addr := BitVec.ofNat 9 a

/-! ### Memory as a list of cells -/

/-- The value of a cell; an unlisted one reads 0 (20_memory.md R44). -/
def Memory.get : Memory → Nat → Byte
  | [], _ => 0#8
  | (k, b) :: rest, a => if k = a then b else Memory.get rest a

/-- Store a byte and keep the canonical form: a cell that becomes 0 is not listed. -/
def Memory.set : Memory → Nat → Byte → Memory
  | [], a, v => if v = 0#8 then [] else [(a, v)]
  | (k, b) :: rest, a, v =>
    if a < k then (if v = 0#8 then (k, b) :: rest else (a, v) :: (k, b) :: rest)
    else if a = k then (if v = 0#8 then rest else (a, v) :: rest)
    else (k, b) :: Memory.set rest a v

/-- The canonical form from a lower bound on the addresses: strictly rising, inside memory, no cell that is 0. -/
def Memory.wfFrom : Nat → Memory → Bool
  | _, [] => true
  | lo, (k, b) :: rest =>
    decide (lo ≤ k) && decide (k < Config.memSize) && decide (b ≠ 0#8) && Memory.wfFrom (k + 1) rest

/-- The canonical form: addresses strictly rising and below 256, and no listed cell is 0. -/
def Memory.wf (m : Memory) : Bool := Memory.wfFrom 0 m

/-- Bytes placed at ascending addresses from `a`; a byte that would lie beyond memory is not placed. -/
def Memory.place : Memory → Nat → List Byte → Memory
  | m, _, [] => m
  | m, a, b :: bs => Memory.place (if a < Config.memSize then m.set a b else m) (a + 1) bs

/-! ### The access primitives -/

/-- `MemRead(a, 1)` (20_memory.md R41). -/
def State.memRead (s : State) (a : Nat) : Except Raise Byte :=
  if a < Config.memSize then .ok (s.mem.get a) else .error (.outOfBounds .memory (recordAddr a))

/-- `MemWrite(a, 1, v)` (20_memory.md R42). -/
def State.memWrite (s : State) (a : Nat) (v : Byte) : Except Raise State :=
  if a < Config.memSize then .ok { s with mem := s.mem.set a v }
  else .error (.outOfBounds .memory (recordAddr a))

/-- `x[i]` (00_scope.md R13). -/
def State.reg (s : State) (i : RegIdx) : Byte := s.regs[i]

/-- `x[i] <- v`: every register write stores `trunc8(v)` (10_state.md R24). -/
def State.writeReg (s : State) (i : RegIdx) (v : Int) : State := { s with regs := s.regs.set i (trunc8 v) }

/-- `SP`, the value of `x[7]` (00_scope.md R13). -/
def State.sp (s : State) : Byte := s.reg Config.spIndex

/-- `SP <- trunc8(SP - 1)` (43_stack.md R121, 10_state.md R24). -/
def State.decSp (s : State) : State := s.writeReg Config.spIndex (s.sp.toNat - 1 : Int)

/-- `SP <- trunc8(SP + 1)` (43_stack.md R122, 10_state.md R24). -/
def State.incSp (s : State) : State := s.writeReg Config.spIndex (s.sp.toNat + 1 : Int)

/-- `pc <- target` for a target taken from a byte (00_scope.md R13). -/
def State.jump (s : State) (target : Byte) : State := { s with pc := target.setWidth 9 }

/-- `emit(v)`: append to the output history (10_state.md R38). -/
def State.emit (s : State) (v : Byte) : State := { s with out := s.out ++ [v] }

/-! ### Taking a fault -/

/-- The step's IR as the fault record wants it: the opcode byte read at PC, or 0 if that read itself faults
(10_state.md R34, 40_execute_cycle.md R90). DEDUCED (log entry 11): it is read again from the state the step began in, which
is what the fetch latched. -/
def State.latchedOpcode (s : State) : Byte :=
  match s.memRead s.pc.toNat with
  | .ok ir => ir
  | .error _ => 0#8

/-- The fault record a raise writes (40_execute_cycle.md R90): `space` and `addr` are written for OutOfBounds only. -/
def State.recordFault (s : State) (opcode : Byte) : Raise → FaultRecord
  | .unknownOpcode => { s.fault with code := .unknownOpcode, pc := s.pc, opcode := opcode }
  | .outOfBounds space addr =>
    { code := .outOfBounds, pc := s.pc, opcode := opcode, space := space, addr := addr }
  | .unsupportedAlu => { s.fault with code := .unsupportedAlu, pc := s.pc, opcode := opcode }

/-- Enter Faulted with the record of a raise, whatever raised it (60_exceptions.md R144, R150). -/
def State.enterFaulted (s : State) (opcode : Byte) (r : Raise) : State :=
  { s with running := false, execState := .faulted, fault := s.recordFault opcode r }

/-- TAKING A FAULT, from the state the step began in, so that every write of the step is discarded
(40_execute_cycle.md R90, 60_exceptions.md R145). -/
def State.takeFault (s : State) (r : Raise) : State := s.enterFaulted s.latchedOpcode r

/-- The 8-bit code of a fault kind (10_state.md R34, 60_exceptions.md R140). -/
def FaultCode.value : FaultCode → Byte
  | .none => 0#8
  | .unknownOpcode => 1#8
  | .outOfBounds => 2#8
  | .unsupportedAlu => 3#8

end Sys2Proof.Machine
end

