-- ==== Sys2Proof/Machine/Flags.lean ====
section
/-! DEFINITION. The core's only flag is `running` (10_state.md R32). It has no condition codes, and ADD and MUL record no
carry and no overflow (R35), so no other flag computation exists. -/

namespace Sys2Proof.Machine

/-- `running <- false`, HLT's effect (41_control_and_data.md R100). -/
def State.clearRunning (s : State) : State := { s with running := false }

/-- The start transition's writes (40_execute_cycle.md R82). -/
def State.enterRunning (s : State) : State := { s with running := true, execState := .running }

/-- The stop check at the end of a step (40_execute_cycle.md R89). -/
def State.stopCheck (s : State) : State :=
  if s.running = false then { s with execState := .stopped } else s

end Sys2Proof.Machine
end

