-- ==== Sys2Proof/Machine/Cycle.lean ====
section
/-! DEFINITION. What every step has in common: the fetch of three bytes and their decoding (40_execute_cycle.md R83 to R87),
and what follows a handler (R88 to R90). -/

namespace Sys2Proof.Machine

/-! ### Fetch and decode -/

/-- `FetchOperand(a)` (40_execute_cycle.md R84). -/
def fetchOperand (mode : SpecFetchOob) (s : State) (a : Nat) : Except Raise Operand :=
  match mode with
  | .fault => do
    let v ← s.memRead a
    return .byte v
  | .ignore => if a < Config.memSize then .ok (.byte (s.mem.get a)) else .ok (.absent (recordAddr a))

/-- The three reads of a step, in ascending address; the first that faults ends the step (40_execute_cycle.md R83). -/
def fetch (mode : SpecFetchOob) (s : State) : Except Raise Latches := do
  let ir ← s.memRead s.pc.toNat
  let opA ← fetchOperand mode s (s.pc.toNat + 1)
  let opB ← fetchOperand mode s (s.pc.toNat + 2)
  return { ir := ir, opA := opA, opB := opB }

/-- The fault a failed decoding raises (40_execute_cycle.md R86, R84). -/
def raiseOf : DecodeError → Raise
  | .unknownOpcode _ => .unknownOpcode
  | .absentOperand a => .outOfBounds .memory a

/-- The latched bytes as an instruction, or the fault of the lookup or of `UseOperand`. -/
def decodeLatched (m : OpcodeMap) (l : Latches) : Except Raise Instr :=
  match decode m l with
  | .ok i => .ok i
  | .error e => .error (raiseOf e)

/-- The first half of a step: fetch, lookup and operands (40_execute_cycle.md R91). -/
def nextInstr (c : Config) (s : State) : Except Raise Instr := do
  let l ← fetch c.specFetchOob s
  decodeLatched c.opcodeMap l

/-! ### After the handler -/

/-- The PC advance by `opc + 1` unless the opcode is PC-setting (40_execute_cycle.md R88). DEDUCED (log entry 13): the count and the
flag are the mnemonic's, which 30_encoding.md R67 makes equal to bits 7:6 and 4 of its opcode byte. -/
def State.advance (s : State) (a : Mnemonic) : State :=
  if a.pcSetting then s else { s with pc := s.pc + BitVec.ofNat 9 (a.operandCount + 1) }

/-- A whole step from a handler's answer: the PC advance and the stop check after it returns (R88, R89), or the fault taken
from the state the step began in (R90). -/
def complete (a : Mnemonic) (s : State) (handler : Except Raise State) : Result :=
  match handler with
  | .ok s' => .next (s'.advance a).stopCheck
  | .error r => .next (s.takeFault r)

end Sys2Proof.Machine
end

