-- ==== Sys2Proof/Machine/Operands.lean ====
section
/-! DEFINITION. The one operand form with a rule of its own: the register index, a whole byte (30_encoding.md R64). LDI's
immediate is its operand byte as it stands (R65), and no instruction takes a memory address (20_memory.md R45). -/

namespace Sys2Proof.Machine

/-- `CheckReg(i)`: an index outside [0, 8) raises `OutOfBounds(register, i)` (00_scope.md R13, 10_state.md R27). -/
def checkReg (r : Byte) : Except Raise RegIdx :=
  if h : r.toNat < 8 then .ok ⟨r.toNat, h⟩ else .error (.outOfBounds .register (recordAddr r.toNat))

end Sys2Proof.Machine
end

