-- ==== Sys2Proof/Machine/Alu.lean ====
section
/-! DEFINITION. The ALU, ADD and MUL (42_alu.md). -/

namespace Sys2Proof.Machine

/-- An operation the ALU can be asked for. DESIGN CHOICE (log entry 16): one it lacks (R110, "otherwise") is named by a byte;
no instruction asks for one (R112). -/
inductive AluOp where
  | add
  | mul
  | other (id : Byte)
  deriving DecidableEq, Repr

/-- The ALU, a pure function (R110): the exact result on integers, then `trunc8`. -/
def alu (op : AluOp) (a b : Byte) : Except Raise Byte :=
  match op with
  | .add => .ok (trunc8 ((a.toNat : Int) + b.toNat))
  | .mul => .ok (trunc8 ((a.toNat : Int) * b.toNat))
  | .other _ => .error .unsupportedAlu

/-- `ApplyALU` (R111): regA is checked first, both values are read, and the result goes to regA. -/
def applyAlu (op : AluOp) (regA regB : Byte) (s : State) : Except Raise State := do
  let ra ← checkReg regA
  let rb ← checkReg regB
  let v ← alu op (s.reg ra) (s.reg rb)
  return s.writeReg ra v.toNat

/-- ADD (R113): `x[regA] <- (x[regA] + x[regB]) mod 256`, PC advances by 3. -/
def execAdd (regA regB : Byte) (s : State) : Result := complete .add s (applyAlu .add regA regB s)

/-- MUL (R114): `x[regA] <- (x[regA] * x[regB]) mod 256`, PC advances by 3. -/
def execMul (regA regB : Byte) (s : State) : Result := complete .mul s (applyAlu .mul regA regB s)

end Sys2Proof.Machine
end

