-- ==== Sys2Proof/Machine/ControlData.lean ====
section
/-! DEFINITION. HLT, LDI and PRN (41_control_and_data.md). -/

namespace Sys2Proof.Machine

/-- HLT (R100): clear the running flag; the step then advances PC by 1 and stops. -/
def execHlt (s : State) : Result := complete .hlt s (.ok s.clearRunning)

/-- LDI (R101): `x[reg] <- imm`, PC advances by 3. -/
def execLdi (reg imm : Byte) (s : State) : Result :=
  complete .ldi s (do
    let r ← checkReg reg
    return s.writeReg r imm.toNat)

/-- PRN (R102): append `x[reg]` to the output, PC advances by 2. -/
def execPrn (reg : Byte) (s : State) : Result :=
  complete .prn s (do
    let r ← checkReg reg
    return s.emit (s.reg r))

end Sys2Proof.Machine
end

