-- ==== Sys2Proof/Machine/Stack.lean ====
section
/-! DEFINITION. The stack of 43_stack.md R120, PUSH and POP. -/

namespace Sys2Proof.Machine

/-- The push of 43_stack.md R120: decrement SP, then write at the new SP the byte that the state after the decrement gives.
SP wraps and is never checked (R123), so the write is always inside memory. -/
def pushByte (s : State) (value : State → Byte) : Except Raise State :=
  s.decSp.memWrite s.decSp.sp.toNat (value s.decSp)

/-- The byte a pop reads, at SP (43_stack.md R120). -/
def topByte (s : State) : Except Raise Byte := s.memRead s.sp.toNat

/-- PUSH (R121): `x[reg]` is read after the decrement, so PUSH R7 stores the decremented SP (R124). -/
def execPush (reg : Byte) (s : State) : Result :=
  complete .push s (do
    let r ← checkReg reg
    pushByte s fun s' => s'.reg r)

/-- POP (R122): the increment reads `x[7]` after the popped byte is written, so POP R7 leaves that byte plus 1 (R124). -/
def execPop (reg : Byte) (s : State) : Result :=
  complete .pop s (do
    let r ← checkReg reg
    let v ← topByte s
    return (s.writeReg r v.toNat).incSp)

end Sys2Proof.Machine
end

