-- ==== Sys2Proof/Machine/Subroutine.lean ====
section
/-! DEFINITION. CALL and RET, the two PC-setting instructions (44_subroutine.md). -/

namespace Sys2Proof.Machine

/-- CALL's return address, which must fit a memory byte (44_subroutine.md R130, R133). -/
def returnAddress (s : State) : Except Raise Byte :=
  if s.pc.toNat + 2 < Config.memSize then .ok (BitVec.ofNat 8 (s.pc.toNat + 2))
  else .error (.outOfBounds .memory (recordAddr (s.pc.toNat + 2)))

/-- CALL (R130): check the register and the return address, push the return address, then `PC <- x[reg]` read after the push.
The "internal slot" is a local value (92_eei_decisions.md D12, log entry 12). -/
def execCall (reg : Byte) (s : State) : Result :=
  complete .call s (do
    let r ← checkReg reg
    let back ← returnAddress s
    let s' ← pushByte s fun _ => back
    return s'.jump (s'.reg r))

/-- RET (R131): `PC <- M[SP]`, then SP is incremented. -/
def execRet (s : State) : Result :=
  complete .ret s (do
    let v ← topByte s
    return (s.jump v).incSp)

end Sys2Proof.Machine
end

