-- ==== Sys2Proof/Machine/Step.lean ====
section
/-! DEFINITION. One step of the core (40_execute_cycle.md R91), for any configuration and for the default one. -/

namespace Sys2Proof.Machine

/-- One step under a configuration. The core executes an instruction only in Running (R81); in Stopped and Faulted it takes no
step, and the model answers the state unchanged (DESIGN CHOICE, log entry 3). -/
def stepUnder (c : Config) (s : State) : Host.Outcome State Fault Refusal :=
  match s.execState with
  | .stopped => .next s
  | .faulted => .next s
  | .running =>
    match nextInstr c s with
    | .error r => .next (s.takeFault r)
    | .ok i => exec i s

/-- One step of the machine with the default parameters (00_scope.md R10, R11). -/
def step (s : State) : Host.Outcome State Fault Refusal := stepUnder Config.default s

/-- `s` with an instruction of the opcode table stored where the next step fetches, and the core Running, as the host's load
and start requests leave it (70_reset_and_hazards.md R172; log entry 6). -/
def State.withFetchWord (s : State) (nbits w : Nat) : State :=
  { s with mem := s.mem.place s.pc.toNat (tableWordBytes nbits w) }.enterRunning

end Sys2Proof.Machine
end

