-- ==== Sys2Proof/Machine/Assembler.lean ====
section
/-! DEFINITION. The assembly syntax of 30_encoding.md R71 to R73, over lists of characters. No rule of the machine depends on it; it
gives the bytes a program text stands for. What R71 leaves open is fixed here (DESIGN CHOICE, log entry 18). -/

namespace Sys2Proof.Machine

/-- A blank between the parts of a line. -/
def isBlank (c : Char) : Bool := c == ' ' || c == '\t'

/-- A text without the blanks at its ends. -/
def trimBlanks (t : List Char) : List Char := ((t.dropWhile isBlank).reverse.dropWhile isBlank).reverse

/-- The fields of an operand list, separated by commas. -/
def splitCommas : List Char → List (List Char)
  | [] => [[]]
  | c :: rest =>
    if c = ',' then [] :: splitCommas rest
    else
      match splitCommas rest with
      | [] => [[c]]
      | f :: fs => (c :: f) :: fs

/-- The value of a digit in bases up to 16. -/
def digitValue (c : Char) : Option Nat :=
  ("0123456789abcdef".toList.idxOf? c).or ("0123456789ABCDEF".toList.idxOf? c)

/-- The digits of a number in a base, most significant first; no digit at all is no number. -/
def numberIn (base : Nat) (digits : List Char) : Option Nat :=
  match digits with
  | [] => none
  | _ =>
    digits.foldl
      (fun acc c =>
        match acc, digitValue c with
        | some n, some d => if d < base then some (n * base + d) else none
        | _, _ => none)
      (some 0)

/-- An immediate: decimal, `0x` hexadecimal or `0b` binary, 0 to 255 (R71, R65). -/
def parseImmediate (t : List Char) : Option Byte :=
  let n :=
    match t with
    | '0' :: 'x' :: ds => numberIn 16 ds
    | '0' :: 'b' :: ds => numberIn 2 ds
    | ds => numberIn 10 ds
  match n with
  | some v => if v < 256 then some (BitVec.ofNat 8 v) else none
  | none => none

/-- A register: `R0` to `R7`, or `SP` for `R7` (R71). -/
def parseRegister (t : List Char) : Option Byte :=
  match t with
  | ['S', 'P'] => some 7#8
  | ['R', c] =>
    match digitValue c with
    | some d => if d < Config.nreg then some (BitVec.ofNat 8 d) else none
    | none => none
  | _ => none

/-- The name of a mnemonic as R66 writes it. -/
def mnemonicText : Mnemonic → List Char
  | .hlt => "HLT".toList
  | .ldi => "LDI".toList
  | .prn => "PRN".toList
  | .add => "ADD".toList
  | .mul => "MUL".toList
  | .push => "PUSH".toList
  | .pop => "POP".toList
  | .call => "CALL".toList
  | .ret => "RET".toList

/-- An instruction from its mnemonic and its operand fields, in the order of R66's operand column. -/
def parseOperands (a : Mnemonic) (fields : List (List Char)) : Option Instr :=
  match a, fields with
  | .hlt, [] => some .hlt
  | .ldi, [r, v] => do return .ldi (← parseRegister r) (← parseImmediate v)
  | .prn, [r] => do return .prn (← parseRegister r)
  | .add, [p, q] => do return .add (← parseRegister p) (← parseRegister q)
  | .mul, [p, q] => do return .mul (← parseRegister p) (← parseRegister q)
  | .push, [r] => do return .push (← parseRegister r)
  | .pop, [r] => do return .pop (← parseRegister r)
  | .call, [r] => do return .call (← parseRegister r)
  | .ret, [] => some .ret
  | _, _ => none

/-- One line of assembly as an instruction (R71). There are no pseudo-instructions (R72). -/
def parseLine (line : List Char) : Option Instr :=
  let parts := (trimBlanks line).span fun c => !isBlank c
  let ops := trimBlanks parts.2
  let fields := if ops = [] then [] else (splitCommas ops).map trimBlanks
  match Mnemonic.all.find? fun a => mnemonicText a == parts.1 with
  | some a => parseOperands a fields
  | none => none

/-- One line of assembly as its bytes (R73). -/
def assembleLine (m : OpcodeMap) (line : List Char) : Option (List Byte) := (parseLine line).map (encode m)

/-- A register operand as R71 writes it, for an index in [0, 8). -/
def registerText (r : Byte) : List Char := 'R' :: Nat.toDigits 10 r.toNat

/-- An instruction in the spelling of the source's example, `LDI R0,8` (R71). -/
def instrText : Instr → List Char
  | .hlt => mnemonicText .hlt
  | .ldi r v => mnemonicText .ldi ++ ' ' :: registerText r ++ ',' :: Nat.toDigits 10 v.toNat
  | .prn r => mnemonicText .prn ++ ' ' :: registerText r
  | .add p q => mnemonicText .add ++ ' ' :: registerText p ++ ',' :: registerText q
  | .mul p q => mnemonicText .mul ++ ' ' :: registerText p ++ ',' :: registerText q
  | .push r => mnemonicText .push ++ ' ' :: registerText r
  | .pop r => mnemonicText .pop ++ ' ' :: registerText r
  | .call r => mnemonicText .call ++ ' ' :: registerText r
  | .ret => mnemonicText .ret

end Sys2Proof.Machine
end

