-- ==== Sys2Proof/Machine/HostPort.lean ====
section
/-! DEFINITION. The block's interface to its host (70_reset_and_hazards.md R170 to R177): the load, start and reset requests, which come
between steps, and what the host observes. -/

namespace Sys2Proof.Machine

/-- A request of the host. DESIGN CHOICE (log entry 7): a load address has the 9 bits of the fault record's `addr`. -/
inductive HostRequest where
  | load (a : Addr) (v : Byte)
  | start
  | reset
  deriving DecidableEq, Repr

/-- `Load(a, v)` (R173): a write through `MemWrite`, in Stopped only. An address of 256 or more raises OutOfBounds, which puts the
core in Faulted (60_exceptions.md R142, R144); no opcode was fetched, so the record's opcode is 0 (DESIGN CHOICE, log entry 7). -/
def hostLoad (a : Addr) (v : Byte) (s : State) : Result :=
  match s.execState with
  | .stopped =>
    match s.memWrite a.toNat v with
    | .ok s' => .next s'
    | .error r => .next (s.enterFaulted 0#8 r)
  | .running => .refused .loadWhileNotStopped
  | .faulted => .refused .loadWhileNotStopped

/-- `Start()` (R174, 40_execute_cycle.md R82): Stopped becomes Running with everything else kept; no effect in Running or Faulted. -/
def hostStart (s : State) : State :=
  match s.execState with
  | .stopped => s.enterRunning
  | .running => s
  | .faulted => s

/-- Reset (R170), available in every state. -/
def hostReset (_ : State) : State := State.reset

/-- The host's request applied between two steps. -/
def hostMove (r : HostRequest) (s : State) : Result :=
  match r with
  | .load a v => hostLoad a v s
  | .start => .next (hostStart s)
  | .reset => .next (hostReset s)

/-- The loader's memory writes: the image's bytes at ascending addresses from `a`, ended by the first load that fails (R172, R173). -/
def loadFrom (a : Nat) (image : List Byte) (s : State) : Result :=
  match image with
  | [] => .next s
  | b :: rest =>
    match hostLoad (recordAddr a) b s with
    | .next s' => if s'.execState = .stopped then loadFrom (a + 1) rest s' else .next s'
    | .fault f => .fault f
    | .refused r => .refused r

/-- The boot order of R172: reset, the image from address 0, one start request. A failed load leaves Faulted, where the start has
no effect. -/
def boot (image : List Byte) (s : State) : Result :=
  match loadFrom 0 image (hostReset s) with
  | .next s' => .next (hostStart s')
  | .fault f => .fault f
  | .refused r => .refused r

/-- The status port (R176): `state` and the fault record. DESIGN CHOICE (log entry 19): it answers in every state, Running included, since
R176 sets no limit; R177's limit, that the host reads the state only in Stopped or Faulted, is put on `hostView` alone. -/
def statusPort (s : State) : ExecState × FaultRecord := (s.execState, s.fault)

/-- What the host may read of the state: all of it, in Stopped or Faulted only (R177). The status port is kept apart from it (log entry 19). -/
def hostView (s : State) : Option State :=
  match s.execState with
  | .running => none
  | .stopped => some s
  | .faulted => some s

/-- The process exit status a host gives once a started run is over (R176): 0 in Stopped, and in Faulted a non-zero value, which
92_eei_decisions.md D19 takes to be 1. A run that is not over has none. -/
def exitStatus (s : State) : Option Nat :=
  match s.execState with
  | .running => none
  | .stopped => some 0
  | .faulted => some 1

/-- The line of text a host prints for one output datum: its decimal value with no leading zeros (R175). -/
def outputLine (v : Byte) : List Char := Nat.toDigits 10 v.toNat

end Sys2Proof.Machine
end

