-- ==== Sys2Proof/Safety.lean ====
section
/-! DEFINITION. What counts as a good state and a good run, in the terms the statements use. -/

namespace Sys2Proof.Machine

/-- The invariant every step and every host request keeps. -/
structure State.Inv (s : State) : Prop where
  /-- memory is in its canonical form -/
  memCanonical : s.mem.wf = true
  /-- `running = true` exactly when `state = Running` (10_state.md R33) -/
  runningIff : s.running = true ↔ s.execState = .running
  /-- no step leaves PC above 256 (10_state.md R29, the spec's decision D4) -/
  pcBound : s.pc.toNat ≤ 256
  /-- the fault record holds a fault exactly in Faulted (10_state.md R34, 40_execute_cycle.md R90; the spec's decisions D7 and D8) -/
  faultIff : s.execState = .faulted ↔ s.fault.code ≠ .none
  /-- in Faulted, the record names the address PC still holds (60_exceptions.md R145, the spec's decision D6, log entry 5); after a failed
  load this is the model's choice (log entry 7) -/
  faultPc : s.execState = .faulted → s.fault.pc = s.pc
  /-- UnsupportedALUOperation is never raised (42_alu.md R112, 60_exceptions.md R143) -/
  noAluFault : s.fault.code ≠ .unsupportedAlu

/-- A configuration the source allows: its opcode map satisfies 30_encoding.md R67. -/
abbrev Valid (c : Config) : Prop := c.opcodeMap.Valid

/-- The states that steps and host requests, in any order, reach from reset. -/
inductive Reachable (c : Config) : State → Prop where
  | reset : Reachable c State.reset
  | step {s t : State} : Reachable c s → stepUnder c s = .next t → Reachable c t
  | host {s t : State} (r : HostRequest) : Reachable c s → hostMove r s = .next t → Reachable c t

/-- The registers an instruction may write, as 10_state.md R23 lists them. -/
def writtenRegs : Instr → List Nat
  | .hlt => []
  | .ldi reg _ => [reg.toNat]
  | .prn _ => []
  | .add regA _ => [regA.toNat]
  | .mul regA _ => [regA.toNat]
  | .push _ => [7]
  | .pop reg => [reg.toNat, 7]
  | .call _ => [7]
  | .ret => [7]

/-- The instructions that store a byte, at the decremented SP (20_memory.md R45). -/
def storesByte : Instr → Bool
  | .hlt => false
  | .ldi _ _ => false
  | .prn _ => false
  | .add _ _ => false
  | .mul _ _ => false
  | .push _ => true
  | .pop _ => false
  | .call _ => true
  | .ret => false

/-- A run ends normally when a step leaves Stopped (40_execute_cycle.md R94). -/
abbrev EndsNormally (c : Config) (s t : State) : Prop :=
  s.execState = .running ∧ stepUnder c s = .next t ∧ t.execState = .stopped

/-- A run ends abnormally when a step leaves Faulted (40_execute_cycle.md R94). -/
abbrev EndsAbnormally (c : Config) (s t : State) : Prop :=
  s.execState = .running ∧ stepUnder c s = .next t ∧ t.execState = .faulted

end Sys2Proof.Machine
end

