-- ==== Sys2Proof/Certificates/Slice0/Obligations.lean ====
section
/-! DEFINITION. The statements for the provers, taken from the numbered rules of spec/. A result statement's conclusion is that `exec` answers
a next state, so it is the completion statement of its instructions too. -/

open Sys2Proof Sys2Proof.Machine

/-! ### Encoding (30_encoding.md) -/

/-- R73, R63: under every opcode map that satisfies R67, decoding the bytes of any instruction, whatever bytes follow, gives the instruction
back, with every operand byte at each of its 256 values. -/
def Obligations.DecodeInvertsEncode : Prop :=
  ∀ (m : OpcodeMap), m.Valid → ∀ (i : Instr) (tail : List Byte), decode m (Latches.ofBytes (encode m i ++ tail)) = .ok i

/-- R87: a handler receives exactly `opc` operand bytes: none, or OP_A, or OP_A then OP_B; and the step executes that instruction. The map is
one that R67 allows. -/
def Obligations.HandlerGetsDeclaredOperands : Prop :=
  ∀ (c : Config), Valid c → ∀ (s : State) (l : Latches) (i : Instr), s.execState = .running → fetch c.specFetchOob s = .ok l →
    decode c.opcodeMap l = .ok i →
      stepUnder c s = exec i s ∧ l.ir = c.opcodeMap.byteOf i.mnemonic ∧
        i.operands.map Operand.byte = [l.opA, l.opB].take (opcField l.ir)

/-- R66 with R63: instruction words written out from the spec's table (first byte lowest) decode to the instructions they stand for, under the
default map. The values of that map are PRESUMED (log entry 1). -/
def Obligations.SampleWordsDecode : Prop :=
  decodeTableWord 8 0b00000001 = some .hlt ∧
    decodeTableWord 24 0b11111111_00000011_10000010 = some (.ldi 3#8 255#8) ∧
    decodeTableWord 16 0b00000111_01000111 = some (.prn 7#8) ∧
    decodeTableWord 24 0b00000001_00000010_10100000 = some (.add 2#8 1#8) ∧
    decodeTableWord 24 0b00000110_00000101_10100010 = some (.mul 5#8 6#8) ∧
    decodeTableWord 16 0b00000100_01000101 = some (.push 4#8) ∧
    decodeTableWord 16 0b00001100_01000110 = some (.pop 12#8) ∧
    decodeTableWord 16 0b00000001_01010000 = some (.call 1#8) ∧
    decodeTableWord 8 0b00010001 = some .ret ∧
    decodeTableWord 8 0b11000000 = none

/-- R62, R70, R61: under a map that satisfies R67, bits 7:6 of the opcode byte give the length of every instruction's encoding, and bit 4 is
set for exactly CALL and RET. -/
def Obligations.OpcodeBitsGiveLengthAndPcset : Prop :=
  ∀ (m : OpcodeMap), m.Valid →
    (∀ (i : Instr), (encode m i).length = opcField (m.byteOf i.mnemonic) + 1) ∧
      (∀ (b : Byte) (a : Mnemonic), m.lookup b = some a →
        b = m.byteOf a ∧ opcField b = a.operandCount ∧ (pcsetField b = true ↔ a = .call ∨ a = .ret))

/-- R68: the decoder refuses, by the name of the byte, exactly the opcode bytes outside the map; the match is on all 8 bits. -/
def Obligations.ExactlyUnmappedOpcodesAreUnknown : Prop :=
  ∀ (m : OpcodeMap) (l : Latches),
    (∀ a, m.byteOf a ≠ l.ir) ↔ decode m l = .error (.unknownOpcode l.ir)

/-- R69: latched bytes that an instruction does not use never matter: decoding depends on the opcode byte and on its first `opc` operands. -/
def Obligations.UnusedOperandBytesNeverMatter : Prop :=
  ∀ (m : OpcodeMap), m.Valid → ∀ (l l' : Latches), l.ir = l'.ir → (1 ≤ opcField l.ir → l.opA = l'.opA) →
    (2 ≤ opcField l.ir → l.opB = l'.opB) → decode m l = decode m l'

/-- R71, R73: the text of a well-formed instruction assembles to that instruction's bytes. The spelling beyond the source's example is the
spec's choice (D16) and the model's (log entry 18). -/
def Obligations.AssemblyTextRoundTrips : Prop :=
  ∀ (m : OpcodeMap) (i : Instr), i.wellFormed = true →
    parseLine (instrText i) = some i ∧ assembleLine m (instrText i) = some (encode m i)

/-! ### The step (40_execute_cycle.md) -/

/-- R91: a step in Running executes the instruction read from the bytes at PC, which are those of its encoding; `step` is the step of the
default configuration. Nothing is added around `exec`, which carries the PC advance and the stop check. -/
def Obligations.StepRunsDecodedInstruction : Prop :=
  (∀ (c : Config) (s : State) (i : Instr), s.execState = .running → nextInstr c s = .ok i → stepUnder c s = exec i s) ∧
    (∀ (c : Config), Valid c → ∀ (s : State) (i : Instr), s.execState = .running → s.pc.toNat + 2 < 256 →
      (∀ k, k < i.length → s.memRead (s.pc.toNat + k) = .ok ((encode c.opcodeMap i).getD k 0#8)) →
        nextInstr c s = .ok i ∧ stepUnder c s = exec i s) ∧
    (∀ (s : State), step s = stepUnder Config.default s)

/-- R83: the fetch reads the opcode byte at PC, raising OutOfBounds(memory, PC) beyond memory, then the operands at PC+1 and PC+2 by
FetchOperand, in this order; the first read that faults ends the step. -/
def Obligations.FetchReadsThreeBytesInOrder : Prop :=
  ∀ (mode : SpecFetchOob) (s : State),
    (256 ≤ s.pc.toNat → fetch mode s = .error (.outOfBounds .memory s.pc)) ∧
      (∀ r, s.pc.toNat < 256 → fetchOperand mode s (s.pc.toNat + 1) = .error r → fetch mode s = .error r) ∧
      (∀ a r, s.pc.toNat < 256 → fetchOperand mode s (s.pc.toNat + 1) = .ok a →
        fetchOperand mode s (s.pc.toNat + 2) = .error r → fetch mode s = .error r) ∧
      (∀ a b, s.pc.toNat < 256 → fetchOperand mode s (s.pc.toNat + 1) = .ok a →
        fetchOperand mode s (s.pc.toNat + 2) = .ok b →
          ∃ ir, s.memRead s.pc.toNat = .ok ir ∧ fetch mode s = .ok ⟨ir, a, b⟩) ∧
      (∀ m r, s.execState = .running → fetch mode s = .error r → stepUnder ⟨m, mode⟩ s = .next (s.takeFault r))

/-- R147 with R84, for both values of SPEC_FETCH_OOB: which fault a step reports, and when it executes its instruction. The order and the
parameter are the spec's decisions D3 and D21, and an ABSENT operand is met before a register check (log entry 10). -/
def Obligations.StepFaultPriority : Prop :=
  ∀ (c : Config) (s : State), s.execState = .running →
    (256 ≤ s.pc.toNat → stepUnder c s = .next (s.takeFault (.outOfBounds .memory s.pc))) ∧
      (s.pc.toNat = 254 ∨ s.pc.toNat = 255 → c.specFetchOob = .fault →
        stepUnder c s = .next (s.takeFault (.outOfBounds .memory 256#9))) ∧
      (∀ ir, (s.pc.toNat + 2 < 256 ∨ c.specFetchOob = .ignore) → s.memRead s.pc.toNat = .ok ir →
        (c.opcodeMap.lookup ir = none → stepUnder c s = .next (s.takeFault .unknownOpcode)) ∧
        (∀ a, c.opcodeMap.lookup ir = some a →
          (256 ≤ s.pc.toNat + a.operandCount → stepUnder c s = .next (s.takeFault (.outOfBounds .memory 256#9))) ∧
          (s.pc.toNat + a.operandCount < 256 → ∃ i, i.mnemonic = a ∧ nextInstr c s = .ok i ∧ stepUnder c s = exec i s)))

/-- R86, R141: an opcode byte outside the map is never skipped: the step takes UnknownOpcode and records the byte and its address. The
record's layout and the precise state are the spec's decisions D7 and D6. -/
def Obligations.UnknownOpcodeIsTaken : Prop :=
  ∀ (c : Config) (s : State) (l : Latches), s.execState = .running → fetch c.specFetchOob s = .ok l →
    (∀ a, c.opcodeMap.byteOf a ≠ l.ir) →
      ∃ t, stepUnder c s = .next t ∧ t.execState = .faulted ∧ t.running = false ∧ t.fault.code = .unknownOpcode ∧
        t.fault.opcode = l.ir ∧ t.fault.pc = s.pc ∧ t.mem = s.mem ∧ t.regs = s.regs ∧ t.pc = s.pc ∧ t.out = s.out

/-- R181: running off the end. Under the default map (PRESUMED, log entry 1) the byte 0, the value of every cell that was never loaded, is an
unknown opcode. -/
def Obligations.UnloadedByteIsUnknownOpcode : Prop :=
  ∀ (s : State), s.execState = .running → s.pc.toNat + 2 < 256 → s.memRead s.pc.toNat = .ok 0#8 →
    step s = .next (s.takeFault .unknownOpcode)

/-- R81: outside Running the core executes nothing and changes nothing. That the model answers the state unchanged is its own choice (log
entry 3). -/
def Obligations.NotRunningChangesNothing : Prop :=
  ∀ (c : Config) (s : State), s.execState ≠ .running → stepUnder c s = .next s

/-- R88, R62: the PC advance is computed from the opcode byte's own bits: by IR[7:6] + 1 where IR[4] is 0, and otherwise the instruction is
CALL or RET and PC is the byte it set. The 9-bit sum is not truncated (D4). -/
def Obligations.PcAdvancesByOpcodeBits : Prop :=
  ∀ (c : Config), Valid c → ∀ (s t : State) (ir : Byte), s.execState = .running → s.memRead s.pc.toNat = .ok ir →
    stepUnder c s = .next t → t.execState ≠ .faulted →
      (pcsetField ir = false → t.pc.toNat = s.pc.toNat + opcField ir + 1) ∧
        (pcsetField ir = true → (c.opcodeMap.lookup ir = some .call ∨ c.opcodeMap.lookup ir = some .ret) ∧ t.pc.toNat < 256)

/-- R89: after a step that does not fault, the core is Stopped exactly when `running` is false, which only HLT makes it; otherwise it is Running
and the next step begins. -/
def Obligations.OnlyHltStopsTheRun : Prop :=
  ∀ (c : Config) (s t : State), s.Inv → s.execState = .running → stepUnder c s = .next t → t.execState ≠ .faulted →
    (t.running = false ↔ t.execState = .stopped) ∧ (t.running = true ↔ t.execState = .running) ∧
      (t.running = false ↔ nextInstr c s = .ok .hlt)

/-! ### Faults (60_exceptions.md) -/

/-- R90, R150: taking a fault writes the fault record, clears `running` and enters Faulted, and writes nothing else. Precision and layout
are the spec's decisions D6 and D7. -/
def Obligations.TakingAFaultWritesOnlyTheRecord : Prop :=
  ∀ (s : State) (r : Raise),
    let t := s.takeFault r
    t.execState = .faulted ∧ t.running = false ∧ t.mem = s.mem ∧ t.regs = s.regs ∧ t.pc = s.pc ∧ t.out = s.out ∧
      t.fault.pc = s.pc ∧
      (∀ ir, s.memRead s.pc.toNat = .ok ir → t.fault.opcode = ir) ∧
      (256 ≤ s.pc.toNat → t.fault.opcode = 0#8) ∧
      (r = .unknownOpcode → t.fault.code.value = 1#8) ∧
      (∀ space a, r = .outOfBounds space a → t.fault.code.value = 2#8 ∧ t.fault.space = space ∧ t.fault.addr = a) ∧
      (r = .unsupportedAlu → t.fault.code.value = 3#8)

/-- R145, R144: faults are precise, over every instruction and every cause: a step that leaves Faulted changed no register, no memory, no PC and no
output, and the record names PC and its byte (the spec's decision D6). -/
def Obligations.FaultsArePrecise : Prop :=
  ∀ (c : Config) (s t : State), EndsAbnormally c s t →
    t.mem = s.mem ∧ t.regs = s.regs ∧ t.pc = s.pc ∧ t.out = s.out ∧ t.running = false ∧ t.fault.code ≠ .none ∧
      t.fault.pc = s.pc ∧ (∀ ir, s.memRead s.pc.toNat = .ok ir → t.fault.opcode = ir) ∧
      (256 ≤ s.pc.toNat → t.fault.opcode = 0#8)

/-- R27, R142, R111: a register operand of 8 or more takes OutOfBounds(register, index), regA's before regB's (the spec's decision D5). -/
def Obligations.RegisterIndexBeyondSevenFaults : Prop :=
  ∀ (s : State) (r q : Byte), 8 ≤ r.toNat →
    let f := Host.Outcome.next (s.takeFault (.outOfBounds .register (recordAddr r.toNat)))
    exec (.ldi r q) s = f ∧ exec (.prn r) s = f ∧ exec (.push r) s = f ∧ exec (.pop r) s = f ∧ exec (.call r) s = f ∧
      exec (.add r q) s = f ∧ exec (.mul r q) s = f ∧
      (q.toNat < 8 → exec (.add q r) s = f ∧ exec (.mul q r) s = f)

/-- R151, R82: Faulted is left by reset alone: no step, no start and no load leaves it (the spec's decision D8, and log entries 3 and 8). -/
def Obligations.OnlyResetLeavesFaulted : Prop :=
  ∀ (c : Config) (s : State), s.execState = .faulted →
    (∀ t, stepUnder c s = .next t → t = s) ∧ hostMove .start s = .next s ∧
      (∀ r t, hostMove r s = .next t → t ≠ s → r = .reset) ∧ hostMove .reset s = .next State.reset

/-- R112: the ALU raises UnsupportedALUOperation for an operation other than ADD and MUL; no opcode asks for one: whatever instruction a step
executes, the fault is not raised. -/
def Obligations.UnsupportedAluIsUnreachable : Prop :=
  (∀ (id a b : Byte), alu (.other id) a b = .error .unsupportedAlu) ∧
    (∀ (op : AluOp) (a b : Byte), op = .add ∨ op = .mul → ∃ v, alu op a b = .ok v) ∧
    (∀ (s : State) (id ra rb : Byte), ra.toNat < 8 → rb.toNat < 8 → applyAlu (.other id) ra rb s = .error .unsupportedAlu) ∧
    (∀ (c : Config) (s t : State), s.fault.code ≠ .unsupportedAlu → stepUnder c s = .next t → t.fault.code ≠ .unsupportedAlu)

/-! ### State and memory (10_state.md, 20_memory.md) -/

/-- R25, R31, R44: what reset leaves in the registers, PC and memory; and memory does not grow, in any state. -/
def Obligations.ResetValues : Prop :=
  (∀ i : RegIdx, State.reset.reg i = if i = 7 then 0xF4#8 else 0#8) ∧ State.reset.pc.toNat = 0 ∧
    (∀ a, a < 256 → State.reset.memRead a = .ok 0#8) ∧
    (∀ (s : State) (a : Nat) (v : Byte), 256 ≤ a →
      s.memRead a = .error (.outOfBounds .memory (recordAddr a)) ∧
        s.memWrite a v = .error (.outOfBounds .memory (recordAddr a)))

/-- R170: the state after reset meets the invariant, is Stopped with nothing output and no fault recorded. `space` at reset is the model's
choice (log entry 9) and is not stated. -/
def Obligations.ResetMeetsInvariant : Prop :=
  State.reset.Inv ∧ State.reset.execState = .stopped ∧ State.reset.running = false ∧ State.reset.out = [] ∧
    State.reset.fault.code.value = 0#8 ∧ State.reset.fault.pc = 0#9 ∧ State.reset.fault.opcode = 0#8 ∧ State.reset.fault.addr = 0#9

/-- R33, R29, R34, R145, R112 as one invariant, with the canonical form of memory: every step keeps it, in every configuration and from every
state that meets it. It rests on the spec's own decisions, and two clauses speak of states after a fault, of which R94 warns that a claim
should take no fault as a premise: `faultPc` rests on D6 (PC kept by a fault, log entry 5) and on D7 (the record's `pc`); `pcBound` on D4 (a
9-bit PC); `faultIff` and the Faulted state on D7 and D8 (log entry 15). -/
def Obligations.EveryStepKeepsInvariant : Prop :=
  (∀ (c : Config) (s t : State), s.Inv → stepUnder c s = .next t → t.Inv) ∧
    (∀ (s t : State), s.Inv → step s = .next t → t.Inv)

/-- Steps and host requests, in any order and number from reset, reach only states that meet the invariant (R170 to R177, R91). The invariant rests
on the spec's decisions D4, D6, D7 and D8, as EveryStepKeepsInvariant says (log entries 5 and 15), and the requests on D10, D23 and D24. After a
failed load `faultPc` says that the record's `pc` is the core's PC and `faultIff` that it enters Faulted: the first is the MODEL'S CHOICE of log
entry 7, which gives a load, no step, that record. -/
def Obligations.ReachableStatesMeetInvariant : Prop :=
  ∀ (c : Config) (s : State), Reachable c s → s.Inv

/-- R24: every register write stores the value modulo 256, a negative one too, and leaves the other registers; so SP wraps from 0 to 255 under
PUSH and CALL and from 255 to 0 under POP and RET. -/
def Obligations.RegisterWritesTruncate : Prop :=
  (∀ (s : State) (i : RegIdx) (v : Int), (((s.writeReg i v).reg i).toNat : Int) = v % 256 ∧
      (∀ j, j ≠ i → (s.writeReg i v).reg j = s.reg j)) ∧
    (∀ (s : State) (r : Byte), r.toNat < 8 → s.sp = 0#8 →
      (∃ t, exec (.push r) s = .next t ∧ t.sp = 255#8) ∧
        (s.pc.toNat + 2 < 256 → ∃ t, exec (.call r) s = .next t ∧ t.sp = 255#8)) ∧
    (∀ (s : State) (r : Byte), r.toNat < 7 → s.sp = 255#8 →
      (∃ t, exec (.pop r) s = .next t ∧ t.sp = 0#8) ∧ (∃ t, exec .ret s = .next t ∧ t.sp = 0#8))

/-- R41: MemRead answers the byte at an address of memory, the one most recently written there, and faults beyond it; R42's write changes one
byte, keeps the canonical form and has no other effect. -/
def Obligations.MemoryReadAfterWrite : Prop :=
  ∀ (s : State) (a : Nat) (v : Byte), s.mem.wf = true →
    (a < 256 → ∃ t, s.memWrite a v = .ok t ∧ t.memRead a = .ok v ∧ (∀ b, b ≠ a → t.memRead b = s.memRead b) ∧
      t.mem.wf = true ∧ t = { s with mem := t.mem }) ∧
      (256 ≤ a → s.memRead a = .error (.outOfBounds .memory (recordAddr a)) ∧
        s.memWrite a v = .error (.outOfBounds .memory (recordAddr a)))

/-- R55: fetch is coherent with stores: the byte PUSH or CALL stores at the new SP is what the very next fetch of its address reads, as opcode or
as operand. PUSH stores its register as it stands afterwards; that PUSH R7 stores the decremented SP is the spec's decision D22 (R124, log entry
15, unsafe), which this form rests on. -/
def Obligations.FetchSeesStoredByte : Prop :=
  ∀ (mode : SpecFetchOob) (s t : State) (r v : Byte) (h : r.toNat < 8), s.mem.wf = true →
    ((exec (.push r) s = .next t ∧ v = t.reg ⟨r.toNat, h⟩) ∨
      (exec (.call r) s = .next t ∧ s.pc.toNat + 2 < 256 ∧ v = BitVec.ofNat 8 (s.pc.toNat + 2))) →
    ∀ (u : State) (l : Latches), u.mem = t.mem → fetch mode u = .ok l →
      (u.pc.toNat = t.sp.toNat → l.ir = v) ∧ (u.pc.toNat + 1 = t.sp.toNat → l.opA = .byte v) ∧
        (u.pc.toNat + 2 = t.sp.toNat → l.opB = .byte v)

/-! ### Results of the instructions, each with its completion -/

/-- R153: every instruction may run at every step: a well-formed one, read below address 254, completes without a fault from any state whose
`running` is true. -/
def Obligations.WellFormedInstructionsComplete : Prop :=
  ∀ (i : Instr) (s : State), i.wellFormed = true → s.running = true → s.execState = .running → s.pc.toNat + 2 < 256 →
    ∃ t, exec i s = .next t ∧ t.execState ≠ .faulted ∧ t.fault = s.fault

/-- R100: HLT clears `running`, advances PC by 1, stops, and changes nothing else; from every state. -/
def Obligations.HltResult : Prop :=
  ∀ (s : State), exec .hlt s = .next { s with running := false, execState := .stopped, pc := s.pc + 1#9 }

/-- R101: LDI sets the register to the immediate, advances PC by 3, and changes nothing else; SP is a register like any other. -/
def Obligations.LdiResult : Prop :=
  ∀ (s : State) (reg imm : Byte) (h : reg.toNat < 8), s.running = true →
    exec (.ldi reg imm) s = .next { s with regs := s.regs.set reg.toNat imm h, pc := s.pc + 3#9 }

/-- R102: PRN appends the register's value to the output, advances PC by 2, and changes nothing else. -/
def Obligations.PrnResult : Prop :=
  ∀ (s : State) (reg : Byte) (h : reg.toNat < 8), s.running = true →
    exec (.prn reg) s = .next { s with out := s.out ++ [s.reg ⟨reg.toNat, h⟩], pc := s.pc + 2#9 }

/-- R115: ADD and MUL leave regA equal to the sum and the product modulo 256, from the two old values, and nothing else changes but PC, by 3; the
stack pointer's decrement and increment follow the same law. -/
def Obligations.AddMulResult : Prop :=
  (∀ (s : State) (a b : Byte) (ha : a.toNat < 8) (hb : b.toNat < 8), s.running = true →
    exec (.add a b) s = .next { s with
      regs := s.regs.set a.toNat (BitVec.ofNat 8 (((s.reg ⟨a.toNat, ha⟩).toNat + (s.reg ⟨b.toNat, hb⟩).toNat) % 256)) ha,
      pc := s.pc + 3#9 } ∧
    exec (.mul a b) s = .next { s with
      regs := s.regs.set a.toNat (BitVec.ofNat 8 (((s.reg ⟨a.toNat, ha⟩).toNat * (s.reg ⟨b.toNat, hb⟩).toNat) % 256)) ha,
      pc := s.pc + 3#9 }) ∧
    (∀ (s : State), s.decSp.sp.toNat = (s.sp.toNat + 255) % 256 ∧ s.incSp.sp.toNat = (s.sp.toNat + 1) % 256)

/-- R121, R120: PUSH decrements SP modulo 256 and then stores at the new SP the register as it then stands (PUSH R7 stores the decremented SP:
the spec's decision D22, R124); no other byte, register or status changes, and PC advances by 2. -/
def Obligations.PushResult : Prop :=
  ∀ (s : State) (reg : Byte) (h : reg.toNat < 8), s.mem.wf = true → s.running = true →
    ∃ t, exec (.push reg) s = .next t ∧ t.sp = s.sp - 1#8 ∧
      t.memRead (s.sp - 1#8).toNat = .ok (if reg = 7#8 then s.sp - 1#8 else s.reg ⟨reg.toNat, h⟩) ∧
      (∀ a, a ≠ (s.sp - 1#8).toNat → t.memRead a = s.memRead a) ∧ (∀ j : RegIdx, j ≠ 7 → t.reg j = s.reg j) ∧
      t.pc = s.pc + 2#9 ∧ t.running = true ∧ t.execState = s.execState ∧ t.fault = s.fault ∧ t.out = s.out

/-- R122, R120: POP reads the byte at SP into the register and then increments SP modulo 256 (POP R7 leaves that byte plus 1: the spec's decision
D22, R124); memory keeps the byte, nothing else changes, and PC advances by 2. -/
def Obligations.PopResult : Prop :=
  ∀ (s : State) (reg : Byte) (h : reg.toNat < 8), s.running = true →
    ∃ t v, s.memRead s.sp.toNat = .ok v ∧ exec (.pop reg) s = .next t ∧
      (reg ≠ 7#8 → t.reg ⟨reg.toNat, h⟩ = v ∧ t.sp = s.sp + 1#8) ∧ (reg = 7#8 → t.sp = v + 1#8) ∧
      (∀ j : RegIdx, j ≠ 7 → j.val ≠ reg.toNat → t.reg j = s.reg j) ∧
      t.mem = s.mem ∧ t.pc = s.pc + 2#9 ∧ t.running = true ∧ t.execState = s.execState ∧ t.fault = s.fault ∧ t.out = s.out

/-- R130, R132: CALL pushes PC + 2, one byte, and sets PC to the register as it stands after the push (CALL R7 jumps to the decremented SP: the
spec's decision D22); no other byte, register or status changes, so no general register holds the internal slot (D12). -/
def Obligations.CallResult : Prop :=
  ∀ (s : State) (reg : Byte) (h : reg.toNat < 8), s.mem.wf = true → s.running = true → s.pc.toNat + 2 < 256 →
    ∃ t, exec (.call reg) s = .next t ∧ t.sp = s.sp - 1#8 ∧
      t.memRead (s.sp - 1#8).toNat = .ok (BitVec.ofNat 8 (s.pc.toNat + 2)) ∧
      (∀ a, a ≠ (s.sp - 1#8).toNat → t.memRead a = s.memRead a) ∧ (∀ j : RegIdx, j ≠ 7 → t.reg j = s.reg j) ∧
      t.pc.toNat = (if reg = 7#8 then s.sp - 1#8 else s.reg ⟨reg.toNat, h⟩).toNat ∧
      t.running = true ∧ t.execState = s.execState ∧ t.fault = s.fault ∧ t.out = s.out

/-- R133: CALL whose return address does not fit a byte takes OutOfBounds(memory, PC + 2) and pushes nothing (the spec's decision D13). A step
reaches this at PC 254 under `ignore` alone. -/
def Obligations.CallReturnAddressFaults : Prop :=
  (∀ (s : State) (reg : Byte), reg.toNat < 8 → s.pc.toNat = 254 →
    exec (.call reg) s = .next (s.takeFault (.outOfBounds .memory 256#9))) ∧
    (∀ (c : Config) (s : State) (reg : Byte), s.execState = .running → nextInstr c s = .ok (.call reg) → reg.toNat < 8 →
      256 ≤ s.pc.toNat + 2 →
        s.pc.toNat = 254 ∧ c.specFetchOob = .ignore ∧ stepUnder c s = .next (s.takeFault (.outOfBounds .memory 256#9)))

/-- R131: RET sets PC to the byte at SP, increments SP modulo 256, and changes nothing else. -/
def Obligations.RetResult : Prop :=
  ∀ (s : State), s.running = true →
    ∃ v, s.memRead s.sp.toNat = .ok v ∧
      exec .ret s = .next { s with pc := v.setWidth 9, regs := s.regs.set 7 (s.sp + 1#8) (by omega) }

/-! ### Frames over all instructions -/

/-- R45, R42: the only bytes an instruction stores are PUSH's and CALL's, at the decremented SP; every other byte of memory reads as before, for
each of the nine instructions and for one that faults. -/
def Obligations.MemoryFrame : Prop :=
  ∀ (i : Instr) (s t : State), exec i s = .next t →
    (storesByte i = false → t.mem = s.mem) ∧ (∀ a, a ≠ s.decSp.sp.toNat → t.memRead a = s.memRead a)

/-- R23: an instruction writes no register but those R23 names for it. That CALL writes none but R7 is the spec's decision D12: its internal slot is
no register (log entry 12, unsafe against an implementation whose slot is one). -/
def Obligations.RegisterFrame : Prop :=
  ∀ (i : Instr) (s t : State), exec i s = .next t → ∀ j : RegIdx, j.val ∉ writtenRegs i → t.reg j = s.reg j

/-- R35, R32, R34, R38: an instruction that completes leaves the fault record alone; only HLT changes `running` and the execution state; only PRN
changes the output, by one byte. -/
def Obligations.StatusFrame : Prop :=
  ∀ (i : Instr) (s t : State), s.running = true → s.execState = .running → exec i s = .next t → t.execState ≠ .faulted →
    t.fault = s.fault ∧ (i ≠ .hlt → t.running = true ∧ t.execState = .running) ∧
      ((∀ r, i ≠ .prn r) → t.out = s.out) ∧ (∀ r, i = .prn r → ∃ b, t.out = s.out ++ [b])

/-- R34, R38: no instruction reads the fault record or the output: with both replaced, a step does the same to memory, registers, PC, `running` and
the execution state, and appends the same bytes. -/
def Obligations.OutputAndRecordAreNeverRead : Prop :=
  ∀ (c : Config) (s t : State) (f : FaultRecord) (o : List Byte), stepUnder c s = .next t →
    ∃ t' new, stepUnder c { s with fault := f, out := o } = .next t' ∧ t'.mem = t.mem ∧ t'.regs = t.regs ∧ t'.pc = t.pc ∧
      t'.running = t.running ∧ t'.execState = t.execState ∧ t.out = s.out ++ new ∧ t'.out = o ++ new

/-! ### Properties over two instructions -/

/-- R101: LDI r,v followed by PRN r outputs exactly v. -/
def Obligations.LdiThenPrnOutputsImmediate : Prop :=
  ∀ (s : State) (r v : Byte), r.toNat < 8 → s.running = true →
    ∃ t u, exec (.ldi r v) s = .next t ∧ exec (.prn r) t = .next u ∧ u.out = s.out ++ [v]

/-- R122, R124: PUSH then POP on the same register restores that register and SP, and every other register, for R7 as well (the spec's decision
D22). -/
def Obligations.PushThenPopRestoresRegisters : Prop :=
  ∀ (s : State) (r : Byte), r.toNat < 8 → s.mem.wf = true → s.running = true →
    ∃ t u, exec (.push r) s = .next t ∧ exec (.pop r) t = .next u ∧ u.regs = s.regs ∧ u.pc = s.pc + 4#9

/-- R131: RET returns to the address after the 2-byte CALL, whatever ran between, if SP and the byte there are as CALL left them; SP is restored. -/
def Obligations.CallThenRetReturns : Prop :=
  ∀ (s t u : State) (r : Byte), r.toNat < 8 → s.mem.wf = true → s.running = true → s.pc.toNat + 2 < 256 →
    exec (.call r) s = .next t → u.running = true → u.sp = t.sp → u.memRead u.sp.toNat = t.memRead t.sp.toNat →
      ∃ w, exec .ret u = .next w ∧ w.pc.toNat = s.pc.toNat + 2 ∧ w.sp = s.sp

/-! ### The host (70_reset_and_hazards.md) -/

/-- R173: a load in Stopped writes one byte and nothing else; at an address of 256 or more it faults with OutOfBounds(memory, a) and writes no
memory; outside Stopped the host has no load. The record's opcode 0 and the address width are the model's choice (log entries 7 and 8). -/
def Obligations.HostLoadWritesOneByte : Prop :=
  ∀ (s : State) (a : Addr) (v : Byte),
    (s.execState = .stopped → a.toNat < 256 → s.mem.wf = true →
      ∃ t, hostMove (.load a v) s = .next t ∧ t.memRead a.toNat = .ok v ∧ (∀ b, b ≠ a.toNat → t.memRead b = s.memRead b) ∧
        t = { s with mem := t.mem }) ∧
      (s.execState = .stopped → 256 ≤ a.toNat →
        ∃ t, hostMove (.load a v) s = .next t ∧ t.execState = .faulted ∧ t.running = false ∧ t.fault.code = .outOfBounds ∧
          t.fault.space = .memory ∧ t.fault.addr = a ∧ t.mem = s.mem ∧ t.regs = s.regs ∧ t.pc = s.pc ∧ t.out = s.out) ∧
      (s.execState ≠ .stopped → hostMove (.load a v) s = .refused .loadWhileNotStopped)

/-- R82, R174: a start request makes a stopped core Running and changes nothing else, PC included, so it resumes after a HLT; it has no effect in
Running or Faulted (the spec's decisions D8 and D9). -/
def Obligations.HostStartResumes : Prop :=
  ∀ (s : State),
    (s.execState = .stopped → hostMove .start s = .next { s with running := true, execState := .running }) ∧
      (s.execState ≠ .stopped → hostMove .start s = .next s)

/-- R172, R173: after reset, load and start, the core is Running at address 0 with SP at 0xF4, the image in memory from 0 and every other cell 0; an image
longer than memory faults at address 256 and the core does not run (the spec's decisions D10 and D23). -/
def Obligations.BootLoadsImage : Prop :=
  ∀ (image : List Byte) (s : State),
    (image.length ≤ 256 →
      ∃ t, boot image s = .next t ∧ t.execState = .running ∧ t.running = true ∧ t.pc = 0#9 ∧ t.regs = State.reset.regs ∧ t.out = [] ∧
        (∀ a, a < 256 → t.memRead a = .ok (image.getD a 0#8))) ∧
      (256 < image.length →
        ∃ t, boot image s = .next t ∧ t.execState = .faulted ∧ t.fault.code = .outOfBounds ∧ t.fault.space = .memory ∧
          t.fault.addr = 256#9)

/-- R94, R176, R177: a run ends normally exactly when its last step executed HLT, and its exit status is 0; it ends abnormally with a non-zero status;
the host reads the whole state at either end, and no state while the core is Running. The value 1 is the spec's decision D19 and is not stated. -/
def Obligations.RunEndsAndStatus : Prop :=
  ∀ (c : Config) (s t : State), s.Inv → s.execState = .running → stepUnder c s = .next t →
    (EndsNormally c s t ↔ nextInstr c s = .ok .hlt) ∧
      (EndsNormally c s t → exitStatus t = some 0 ∧ hostView t = some t) ∧
      (EndsAbnormally c s t → (∃ n, exitStatus t = some n ∧ n ≠ 0) ∧ hostView t = some t ∧ statusPort t = (.faulted, t.fault)) ∧
      (¬ EndsNormally c s t → ¬ EndsAbnormally c s t → t.execState = .running ∧ exitStatus t = none ∧ hostView t = none)
end

