-- ==== Sys2Proof/Laws/Decode.lean ====
section
/-! SUPPORT. The lookup, the decoder and the encoder, one lemma per answer. -/

namespace Sys2Proof

theorem Mnemonic.mem_all (a : Mnemonic) : a ∈ Mnemonic.all := by cases a <;> decide

theorem OpcodeMap.byteOf_of_lookup {m : OpcodeMap} {b : Byte} {a : Mnemonic} (h : m.lookup b = some a) :
    m.byteOf a = b := by
  simpa using List.find?_some h

theorem OpcodeMap.lookup_eq_none {m : OpcodeMap} {b : Byte} : m.lookup b = none ↔ ∀ a, m.byteOf a ≠ b := by
  simp only [OpcodeMap.lookup, List.find?_eq_none, beq_iff_eq]
  exact ⟨fun h a => h a a.mem_all, fun h a _ => h a⟩

/-- Under a valid map the bytes of two mnemonics differ (30_encoding.md R67). -/
theorem OpcodeMap.Valid.byteOf_injective {m : OpcodeMap} (hm : m.Valid) {a b : Mnemonic}
    (h : m.byteOf a = m.byteOf b) : a = b :=
  List.inj_on_of_nodup_map hm.1 a.mem_all b.mem_all h

theorem OpcodeMap.Valid.lookup_byteOf {m : OpcodeMap} (hm : m.Valid) (a : Mnemonic) :
    m.lookup (m.byteOf a) = some a := by
  cases h : m.lookup (m.byteOf a) with
  | none => exact absurd rfl (OpcodeMap.lookup_eq_none.1 h a)
  | some b => exact congrArg some (hm.byteOf_injective (OpcodeMap.byteOf_of_lookup h))

theorem OpcodeMap.Valid.opcField_byteOf {m : OpcodeMap} (hm : m.Valid) (a : Mnemonic) :
    opcField (m.byteOf a) = a.operandCount := (hm.2 a a.mem_all).1

theorem OpcodeMap.Valid.pcsetField_byteOf {m : OpcodeMap} (hm : m.Valid) (a : Mnemonic) :
    pcsetField (m.byteOf a) = a.pcSetting := (hm.2 a a.mem_all).2

theorem useOperand_eq_ok {o : Operand} {v : Byte} : useOperand o = .ok v ↔ o = .byte v := by
  cases o <;> simp [useOperand]

/-- What the decoder answers: the lookup's failure, or the operands of the mnemonic found. -/
theorem decode_eq (m : OpcodeMap) (l : Latches) :
    decode m l = match m.lookup l.ir with
      | none => .error (.unknownOpcode l.ir)
      | some a => decodeOperands l a := rfl

/-- Everything a decoded operand list can be: the instruction has the mnemonic asked for, and its operand bytes are the first latched
operand bytes, as many as it takes. -/
theorem decodeOperands_eq_ok {l : Latches} {a : Mnemonic} {i : Instr} (h : decodeOperands l a = .ok i) :
    i.mnemonic = a ∧ i.operands.map Operand.byte = [l.opA, l.opB].take a.operandCount := by
  obtain ⟨ir, p, q⟩ := l
  cases a <;> cases p <;> cases q <;>
    simp only [decodeOperands, useOperand, bind, Except.bind, pure, Except.pure, Except.ok.injEq, reduceCtorEq] at h <;>
    subst h <;> exact ⟨rfl, rfl⟩

theorem Instr.length_operands (i : Instr) : i.operands.length = i.mnemonic.operandCount := by cases i <;> rfl

theorem encode_length (m : OpcodeMap) (i : Instr) : (encode m i).length = i.length := by
  simp [encode, Instr.length, Instr.length_operands]

end Sys2Proof
end

