-- ==== Sys2Proof/Laws/Memory.lean ====
section
/-! SUPPORT. Memory as a canonical list: a read after a write, the frame of a write, and that every operation keeps the canonical form. -/

namespace Sys2Proof.Machine

theorem Memory.get_nil (a : Nat) : Memory.get [] a = 0#8 := rfl

theorem Memory.get_cons (k : Nat) (b : Byte) (rest : Memory) (a : Nat) :
    Memory.get ((k, b) :: rest) a = if k = a then b else Memory.get rest a := rfl

theorem Memory.wfFrom_cons {lo k : Nat} {b : Byte} {rest : Memory} :
    Memory.wfFrom lo ((k, b) :: rest) = true ↔
      lo ≤ k ∧ k < Config.memSize ∧ b ≠ 0#8 ∧ Memory.wfFrom (k + 1) rest = true := by
  simp [Memory.wfFrom, and_assoc]

theorem Memory.wfFrom_mono {lo lo' : Nat} (h : lo' ≤ lo) {m : Memory} (hm : Memory.wfFrom lo m = true) :
    Memory.wfFrom lo' m = true := by
  cases m with
  | nil => rfl
  | cons c rest =>
    obtain ⟨k, b⟩ := c
    rw [Memory.wfFrom_cons] at hm ⊢
    exact ⟨h.trans hm.1, hm.2⟩

theorem Memory.get_below {lo a : Nat} (h : a < lo) {m : Memory} (hm : Memory.wfFrom lo m = true) :
    Memory.get m a = 0#8 := by
  induction m generalizing lo with
  | nil => rfl
  | cons c rest ih =>
    obtain ⟨k, b⟩ := c
    rw [Memory.wfFrom_cons] at hm
    rw [Memory.get_cons, if_neg (by omega)]
    exact ih (by omega) hm.2.2.2

/-- Writing a byte leaves every other address as it was, whatever the list. -/
theorem Memory.get_set_ne {a a' : Nat} (h : a' ≠ a) (m : Memory) (v : Byte) :
    Memory.get (Memory.set m a v) a' = Memory.get m a' := by
  induction m with
  | nil =>
    simp only [Memory.set]
    split
    · rfl
    · simp [Memory.get, h.symm]
  | cons c rest ih =>
    obtain ⟨k, b⟩ := c
    have h' : ¬a = a' := fun e => h e.symm
    simp only [Memory.set]
    split_ifs with h1 h2 h3 h4
    · rfl
    · simp [Memory.get, h']
    · subst h3; simp [Memory.get, h']
    · subst h3; simp [Memory.get, h']
    · simp [Memory.get, ih]

/-- Reading the address just written gives the byte written. -/
theorem Memory.get_set_self_from {lo : Nat} (a : Nat) (v : Byte) {m : Memory} (hm : Memory.wfFrom lo m = true) :
    Memory.get (Memory.set m a v) a = v := by
  induction m generalizing lo with
  | nil =>
    simp only [Memory.set]
    split
    · simp_all [Memory.get]
    · simp [Memory.get]
  | cons c rest ih =>
    obtain ⟨k, b⟩ := c
    rw [Memory.wfFrom_cons] at hm
    simp only [Memory.set]
    split_ifs with h1 h2 h3 h4
    · rw [Memory.get_cons, if_neg (by omega), Memory.get_below (by omega) hm.2.2.2, h2]
    · simp [Memory.get]
    · rw [Memory.get_below (by omega) hm.2.2.2, h4]
    · simp [Memory.get]
    · rw [Memory.get_cons, if_neg (by omega)]
      exact ih hm.2.2.2

theorem Memory.wfFrom_set {lo a : Nat} (hlo : lo ≤ a) (ha : a < Config.memSize) (v : Byte) {m : Memory}
    (hm : Memory.wfFrom lo m = true) : Memory.wfFrom lo (Memory.set m a v) = true := by
  induction m generalizing lo with
  | nil =>
    simp only [Memory.set]
    split
    · rfl
    · exact Memory.wfFrom_cons.2 ⟨hlo, ha, ‹_›, rfl⟩
  | cons c rest ih =>
    obtain ⟨k, b⟩ := c
    have hm' := Memory.wfFrom_cons.1 hm
    simp only [Memory.set]
    split_ifs with h1 h2 h3 h4
    · exact hm
    · exact Memory.wfFrom_cons.2 ⟨hlo, ha, h2, Memory.wfFrom_cons.2 ⟨by omega, hm'.2⟩⟩
    · exact Memory.wfFrom_mono (by omega) hm'.2.2.2
    · exact Memory.wfFrom_cons.2 ⟨hlo, ha, h4, h3 ▸ hm'.2.2.2⟩
    · exact Memory.wfFrom_cons.2 ⟨hm'.1, hm'.2.1, hm'.2.2.1, ih (by omega) hm'.2.2.2⟩

theorem Memory.get_set_self (a : Nat) (v : Byte) {m : Memory} (hm : m.wf = true) :
    Memory.get (Memory.set m a v) a = v := Memory.get_set_self_from a v hm

/-- A write keeps the canonical form. -/
theorem Memory.wf_set {a : Nat} (ha : a < Config.memSize) (v : Byte) {m : Memory} (hm : m.wf = true) :
    (Memory.set m a v).wf = true := Memory.wfFrom_set (Nat.zero_le a) ha v hm

/-- Placing bytes keeps the canonical form. -/
theorem Memory.wf_place (bs : List Byte) (a : Nat) {m : Memory} (hm : m.wf = true) :
    (Memory.place m a bs).wf = true := by
  induction bs generalizing m a with
  | nil => exact hm
  | cons b bs ih =>
    refine ih (a + 1) ?_
    split
    · exact Memory.wf_set ‹_› b hm
    · exact hm

/-- In canonical form, no cell beyond memory is listed. -/
theorem Memory.get_beyond {lo a : Nat} (ha : Config.memSize ≤ a) {m : Memory} (hm : Memory.wfFrom lo m = true) :
    Memory.get m a = 0#8 := by
  induction m generalizing lo with
  | nil => rfl
  | cons c rest ih =>
    obtain ⟨k, b⟩ := c
    rw [Memory.wfFrom_cons] at hm
    rw [Memory.get_cons, if_neg (by omega)]
    exact ih hm.2.2.2

/-- Two canonical memories that read the same everywhere are the same list. -/
theorem Memory.ext_of_wfFrom {lo : Nat} {m m' : Memory} (hm : Memory.wfFrom lo m = true)
    (hm' : Memory.wfFrom lo m' = true) (h : ∀ a, m.get a = m'.get a) : m = m' := by
  induction m generalizing lo m' with
  | nil =>
    cases m' with
    | nil => rfl
    | cons c rest =>
      obtain ⟨k, b⟩ := c
      have := h k
      rw [Memory.wfFrom_cons] at hm'
      simp only [Memory.get, if_true] at this
      exact absurd this.symm hm'.2.2.1
  | cons c rest ih =>
    obtain ⟨k, b⟩ := c
    have hc := Memory.wfFrom_cons.1 hm
    cases m' with
    | nil =>
      have := h k
      simp only [Memory.get, if_true] at this
      exact absurd this hc.2.2.1
    | cons c' rest' =>
      obtain ⟨k', b'⟩ := c'
      have hc' := Memory.wfFrom_cons.1 hm'
      have hk : k = k' := by
        by_contra hne
        rcases Nat.lt_or_gt_of_ne hne with hlt | hlt
        · have := h k
          rw [Memory.get_cons, if_pos rfl, Memory.get_cons, if_neg (by omega),
            Memory.get_below (by omega) hc'.2.2.2] at this
          exact hc.2.2.1 this
        · have := h k'
          rw [Memory.get_cons, if_neg (by omega), Memory.get_below (by omega) hc.2.2.2,
            Memory.get_cons, if_pos rfl] at this
          exact hc'.2.2.1 this.symm
      subst hk
      have hb : b = b' := by simpa [Memory.get] using h k
      subst hb
      refine congrArg _ (ih hc.2.2.2 hc'.2.2.2 fun a => ?_)
      have := h a
      rw [Memory.get_cons, Memory.get_cons] at this
      by_cases hak : k = a
      · subst hak
        rw [Memory.get_below (by omega) hc.2.2.2, Memory.get_below (by omega) hc'.2.2.2]
      · simpa [hak] using this

end Sys2Proof.Machine
end

