-- ==== Sys2Proof/Laws/State.lean ====
section
/-! SUPPORT. One lemma per field per update, so that no later proof unfolds a record update. -/

namespace Sys2Proof.Machine

variable (s : State)

@[simp] theorem State.writeReg_mem (i : RegIdx) (v : Int) : (s.writeReg i v).mem = s.mem := rfl
@[simp] theorem State.writeReg_regs (i : RegIdx) (v : Int) : (s.writeReg i v).regs = s.regs.set i (trunc8 v) := rfl
@[simp] theorem State.writeReg_pc (i : RegIdx) (v : Int) : (s.writeReg i v).pc = s.pc := rfl
@[simp] theorem State.writeReg_running (i : RegIdx) (v : Int) : (s.writeReg i v).running = s.running := rfl
@[simp] theorem State.writeReg_execState (i : RegIdx) (v : Int) : (s.writeReg i v).execState = s.execState := rfl
@[simp] theorem State.writeReg_fault (i : RegIdx) (v : Int) : (s.writeReg i v).fault = s.fault := rfl
@[simp] theorem State.writeReg_out (i : RegIdx) (v : Int) : (s.writeReg i v).out = s.out := rfl

@[simp] theorem State.jump_mem (b : Byte) : (s.jump b).mem = s.mem := rfl
@[simp] theorem State.jump_regs (b : Byte) : (s.jump b).regs = s.regs := rfl
@[simp] theorem State.jump_pc (b : Byte) : (s.jump b).pc = b.setWidth 9 := rfl
@[simp] theorem State.jump_running (b : Byte) : (s.jump b).running = s.running := rfl
@[simp] theorem State.jump_execState (b : Byte) : (s.jump b).execState = s.execState := rfl
@[simp] theorem State.jump_fault (b : Byte) : (s.jump b).fault = s.fault := rfl
@[simp] theorem State.jump_out (b : Byte) : (s.jump b).out = s.out := rfl

@[simp] theorem State.emit_mem (b : Byte) : (s.emit b).mem = s.mem := rfl
@[simp] theorem State.emit_regs (b : Byte) : (s.emit b).regs = s.regs := rfl
@[simp] theorem State.emit_pc (b : Byte) : (s.emit b).pc = s.pc := rfl
@[simp] theorem State.emit_running (b : Byte) : (s.emit b).running = s.running := rfl
@[simp] theorem State.emit_execState (b : Byte) : (s.emit b).execState = s.execState := rfl
@[simp] theorem State.emit_fault (b : Byte) : (s.emit b).fault = s.fault := rfl
@[simp] theorem State.emit_out (b : Byte) : (s.emit b).out = s.out ++ [b] := rfl

@[simp] theorem State.clearRunning_mem : (s.clearRunning).mem = s.mem := rfl
@[simp] theorem State.clearRunning_regs : (s.clearRunning).regs = s.regs := rfl
@[simp] theorem State.clearRunning_pc : (s.clearRunning).pc = s.pc := rfl
@[simp] theorem State.clearRunning_running : (s.clearRunning).running = false := rfl
@[simp] theorem State.clearRunning_execState : (s.clearRunning).execState = s.execState := rfl
@[simp] theorem State.clearRunning_fault : (s.clearRunning).fault = s.fault := rfl
@[simp] theorem State.clearRunning_out : (s.clearRunning).out = s.out := rfl

@[simp] theorem State.enterRunning_mem : (s.enterRunning).mem = s.mem := rfl
@[simp] theorem State.enterRunning_regs : (s.enterRunning).regs = s.regs := rfl
@[simp] theorem State.enterRunning_pc : (s.enterRunning).pc = s.pc := rfl
@[simp] theorem State.enterRunning_running : (s.enterRunning).running = true := rfl
@[simp] theorem State.enterRunning_execState : (s.enterRunning).execState = .running := rfl
@[simp] theorem State.enterRunning_fault : (s.enterRunning).fault = s.fault := rfl
@[simp] theorem State.enterRunning_out : (s.enterRunning).out = s.out := rfl

@[simp] theorem State.enterFaulted_mem (op : Byte) (r : Raise) : (s.enterFaulted op r).mem = s.mem := rfl
@[simp] theorem State.enterFaulted_regs (op : Byte) (r : Raise) : (s.enterFaulted op r).regs = s.regs := rfl
@[simp] theorem State.enterFaulted_pc (op : Byte) (r : Raise) : (s.enterFaulted op r).pc = s.pc := rfl
@[simp] theorem State.enterFaulted_running (op : Byte) (r : Raise) : (s.enterFaulted op r).running = false := rfl
@[simp] theorem State.enterFaulted_execState (op : Byte) (r : Raise) : (s.enterFaulted op r).execState = .faulted := rfl
@[simp] theorem State.enterFaulted_fault (op : Byte) (r : Raise) : (s.enterFaulted op r).fault = s.recordFault op r := rfl
@[simp] theorem State.enterFaulted_out (op : Byte) (r : Raise) : (s.enterFaulted op r).out = s.out := rfl

@[simp] theorem State.takeFault_mem (r : Raise) : (s.takeFault r).mem = s.mem := rfl
@[simp] theorem State.takeFault_regs (r : Raise) : (s.takeFault r).regs = s.regs := rfl
@[simp] theorem State.takeFault_pc (r : Raise) : (s.takeFault r).pc = s.pc := rfl
@[simp] theorem State.takeFault_running (r : Raise) : (s.takeFault r).running = false := rfl
@[simp] theorem State.takeFault_execState (r : Raise) : (s.takeFault r).execState = .faulted := rfl
@[simp] theorem State.takeFault_fault (r : Raise) : (s.takeFault r).fault = s.recordFault s.latchedOpcode r := rfl
@[simp] theorem State.takeFault_out (r : Raise) : (s.takeFault r).out = s.out := rfl

@[simp] theorem State.decSp_mem : (s.decSp).mem = s.mem := rfl
@[simp] theorem State.decSp_regs : (s.decSp).regs = s.regs.set Config.spIndex (trunc8 (s.sp.toNat - 1 : Int)) := rfl
@[simp] theorem State.decSp_pc : (s.decSp).pc = s.pc := rfl
@[simp] theorem State.decSp_running : (s.decSp).running = s.running := rfl
@[simp] theorem State.decSp_execState : (s.decSp).execState = s.execState := rfl
@[simp] theorem State.decSp_fault : (s.decSp).fault = s.fault := rfl
@[simp] theorem State.decSp_out : (s.decSp).out = s.out := rfl

@[simp] theorem State.incSp_mem : (s.incSp).mem = s.mem := rfl
@[simp] theorem State.incSp_regs : (s.incSp).regs = s.regs.set Config.spIndex (trunc8 (s.sp.toNat + 1 : Int)) := rfl
@[simp] theorem State.incSp_pc : (s.incSp).pc = s.pc := rfl
@[simp] theorem State.incSp_running : (s.incSp).running = s.running := rfl
@[simp] theorem State.incSp_execState : (s.incSp).execState = s.execState := rfl
@[simp] theorem State.incSp_fault : (s.incSp).fault = s.fault := rfl
@[simp] theorem State.incSp_out : (s.incSp).out = s.out := rfl

@[simp] theorem State.stopCheck_mem : s.stopCheck.mem = s.mem := by unfold State.stopCheck; split <;> rfl
@[simp] theorem State.stopCheck_regs : s.stopCheck.regs = s.regs := by unfold State.stopCheck; split <;> rfl
@[simp] theorem State.stopCheck_pc : s.stopCheck.pc = s.pc := by unfold State.stopCheck; split <;> rfl
@[simp] theorem State.stopCheck_running : s.stopCheck.running = s.running := by unfold State.stopCheck; split <;> rfl
@[simp] theorem State.stopCheck_fault : s.stopCheck.fault = s.fault := by unfold State.stopCheck; split <;> rfl
@[simp] theorem State.stopCheck_out : s.stopCheck.out = s.out := by unfold State.stopCheck; split <;> rfl
@[simp] theorem State.stopCheck_execState :
    s.stopCheck.execState = if s.running = false then .stopped else s.execState := by
  unfold State.stopCheck; split <;> rfl

@[simp] theorem State.advance_mem (a : Mnemonic) : (s.advance a).mem = s.mem := by unfold State.advance; split <;> rfl
@[simp] theorem State.advance_regs (a : Mnemonic) : (s.advance a).regs = s.regs := by unfold State.advance; split <;> rfl
@[simp] theorem State.advance_running (a : Mnemonic) : (s.advance a).running = s.running := by unfold State.advance; split <;> rfl
@[simp] theorem State.advance_execState (a : Mnemonic) : (s.advance a).execState = s.execState := by unfold State.advance; split <;> rfl
@[simp] theorem State.advance_fault (a : Mnemonic) : (s.advance a).fault = s.fault := by unfold State.advance; split <;> rfl
@[simp] theorem State.advance_out (a : Mnemonic) : (s.advance a).out = s.out := by unfold State.advance; split <;> rfl
@[simp] theorem State.advance_pc (a : Mnemonic) :
    (s.advance a).pc = if a.pcSetting then s.pc else s.pc + BitVec.ofNat 9 (a.operandCount + 1) := by
  unfold State.advance; split <;> rfl

end Sys2Proof.Machine
end

