-- ==== Sys2Proof/Laws/Ops.lean ====
section
/-! SUPPORT. For each shared operation, what it answers, said once: truncation, registers and SP, the access primitives, the operand
check, the push and the pop, the ALU, and the end of a step. -/

namespace Sys2Proof.Machine

/-! ### Truncation -/

theorem toNat_trunc8 (v : Int) : ((trunc8 v).toNat : Int) = v % 256 := by
  simp only [trunc8, BitVec.toNat_ofInt]
  omega

@[simp] theorem trunc8_toNat (b : Byte) : trunc8 b.toNat = b := by
  apply BitVec.eq_of_toNat_eq
  have := toNat_trunc8 b.toNat
  have := b.isLt
  omega

@[simp] theorem trunc8_add_toNat (a b : Byte) : trunc8 ((a.toNat : Int) + b.toNat) = a + b := by
  apply BitVec.eq_of_toNat_eq
  have := toNat_trunc8 ((a.toNat : Int) + b.toNat)
  rw [BitVec.toNat_add]
  omega

@[simp] theorem trunc8_mul_toNat (a b : Byte) : trunc8 ((a.toNat : Int) * b.toNat) = a * b := by
  apply BitVec.eq_of_toNat_eq
  have := toNat_trunc8 ((a.toNat : Int) * b.toNat)
  rw [BitVec.toNat_mul]
  omega

@[simp] theorem trunc8_sub_one (a : Byte) : trunc8 (a.toNat - 1 : Int) = a - 1#8 := by
  apply BitVec.eq_of_toNat_eq
  have := toNat_trunc8 (a.toNat - 1 : Int)
  have := a.isLt
  rw [BitVec.toNat_sub]
  simp only [BitVec.toNat_ofNat]
  omega

@[simp] theorem trunc8_add_one (a : Byte) : trunc8 (a.toNat + 1 : Int) = a + 1#8 := by
  apply BitVec.eq_of_toNat_eq
  have := toNat_trunc8 (a.toNat + 1 : Int)
  have := a.isLt
  rw [BitVec.toNat_add]
  simp only [BitVec.toNat_ofNat]
  omega

/-! ### Registers -/

theorem State.reg_def (s : State) (i : RegIdx) : s.reg i = s.regs[i] := rfl

/-- Register files that read the same at every index are the same. -/
theorem State.regs_ext {s t : State} (h : ∀ i : RegIdx, s.reg i = t.reg i) : s.regs = t.regs :=
  Vector.ext fun i hi => h ⟨i, hi⟩

@[simp] theorem State.reg_writeReg_self (s : State) (i : RegIdx) (v : Int) : (s.writeReg i v).reg i = trunc8 v := by
  simp [State.reg, State.writeReg]

theorem State.reg_writeReg_ne (s : State) {i j : RegIdx} (h : j ≠ i) (v : Int) : (s.writeReg i v).reg j = s.reg j := by
  have : (i : Nat) ≠ j := fun e => h (Fin.ext e.symm)
  simp [State.reg, State.writeReg, this]

@[simp] theorem State.reg_jump (s : State) (b : Byte) (i : RegIdx) : (s.jump b).reg i = s.reg i := rfl
@[simp] theorem State.reg_emit (s : State) (b : Byte) (i : RegIdx) : (s.emit b).reg i = s.reg i := rfl
@[simp] theorem State.reg_clearRunning (s : State) (i : RegIdx) : s.clearRunning.reg i = s.reg i := rfl
@[simp] theorem State.reg_enterRunning (s : State) (i : RegIdx) : s.enterRunning.reg i = s.reg i := rfl
@[simp] theorem State.reg_takeFault (s : State) (r : Raise) (i : RegIdx) : (s.takeFault r).reg i = s.reg i := rfl
@[simp] theorem State.reg_mem (s : State) (m : Memory) (i : RegIdx) : State.reg { s with mem := m } i = s.reg i := rfl
@[simp] theorem State.reg_advance (s : State) (a : Mnemonic) (i : RegIdx) : (s.advance a).reg i = s.reg i := by
  simp [State.reg]
@[simp] theorem State.reg_stopCheck (s : State) (i : RegIdx) : s.stopCheck.reg i = s.reg i := by
  simp [State.reg]

@[simp] theorem State.sp_decSp (s : State) : s.decSp.sp = s.sp - 1#8 := by
  simp [State.sp, State.decSp]

@[simp] theorem State.sp_incSp (s : State) : s.incSp.sp = s.sp + 1#8 := by
  simp [State.sp, State.incSp]

theorem State.reg_decSp_ne (s : State) {j : RegIdx} (h : j ≠ Config.spIndex) : s.decSp.reg j = s.reg j :=
  State.reg_writeReg_ne s h _

theorem State.reg_incSp_ne (s : State) {j : RegIdx} (h : j ≠ Config.spIndex) : s.incSp.reg j = s.reg j :=
  State.reg_writeReg_ne s h _

/-! ### The access primitives -/

theorem State.memRead_of_lt (s : State) {a : Nat} (h : a < Config.memSize) : s.memRead a = .ok (s.mem.get a) := if_pos h

theorem State.memRead_of_ge (s : State) {a : Nat} (h : Config.memSize ≤ a) :
    s.memRead a = .error (.outOfBounds .memory (recordAddr a)) := if_neg (by omega)

theorem State.memWrite_of_lt (s : State) {a : Nat} (h : a < Config.memSize) (v : Byte) :
    s.memWrite a v = .ok { s with mem := s.mem.set a v } := if_pos h

theorem State.memWrite_of_ge (s : State) {a : Nat} (h : Config.memSize ≤ a) (v : Byte) :
    s.memWrite a v = .error (.outOfBounds .memory (recordAddr a)) := if_neg (by omega)

theorem byte_lt_memSize (b : Byte) : b.toNat < Config.memSize := b.isLt

theorem State.latchedOpcode_of_lt (s : State) (h : s.pc.toNat < Config.memSize) :
    s.latchedOpcode = s.mem.get s.pc.toNat := by
  simp [State.latchedOpcode, State.memRead_of_lt s h]

theorem State.latchedOpcode_of_ge (s : State) (h : Config.memSize ≤ s.pc.toNat) : s.latchedOpcode = 0#8 := by
  simp [State.latchedOpcode, State.memRead_of_ge s h]

/-! ### Operands, stack and ALU -/

theorem checkReg_of_lt {r : Byte} (h : r.toNat < 8) : checkReg r = .ok ⟨r.toNat, h⟩ := dif_pos h

theorem checkReg_of_ge {r : Byte} (h : 8 ≤ r.toNat) :
    checkReg r = .error (.outOfBounds .register (recordAddr r.toNat)) := dif_neg (by omega)

/-- A push answers a state: SP decremented and one byte stored at the new SP. -/
theorem pushByte_eq (s : State) (value : State → Byte) :
    pushByte s value = .ok { s.decSp with mem := s.mem.set s.decSp.sp.toNat (value s.decSp) } :=
  State.memWrite_of_lt s.decSp (byte_lt_memSize _) _

/-- A pop's read answers the byte at SP. -/
theorem topByte_eq (s : State) : topByte s = .ok (s.mem.get s.sp.toNat) := State.memRead_of_lt s (byte_lt_memSize _)

theorem returnAddress_of_lt (s : State) (h : s.pc.toNat + 2 < Config.memSize) :
    returnAddress s = .ok (BitVec.ofNat 8 (s.pc.toNat + 2)) := if_pos h

theorem returnAddress_of_ge (s : State) (h : Config.memSize ≤ s.pc.toNat + 2) :
    returnAddress s = .error (.outOfBounds .memory (recordAddr (s.pc.toNat + 2))) := if_neg (by omega)

/-! ### The end of a step -/

theorem complete_ok (a : Mnemonic) (s s' : State) : complete a s (.ok s') = .next (s'.advance a).stopCheck := rfl

theorem complete_error (a : Mnemonic) (s : State) (r : Raise) : complete a s (.error r) = .next (s.takeFault r) := rfl

/-- Everything the end of a step can do: complete from the handler's state, or take the handler's fault. -/
theorem complete_eq_next {a : Mnemonic} {s t : State} {h : Except Raise State} :
    complete a s h = .next t ↔
      (∃ s', h = .ok s' ∧ t = (s'.advance a).stopCheck) ∨ (∃ r, h = .error r ∧ t = s.takeFault r) := by
  cases h with
  | ok s' => simp [complete, eq_comm]
  | error r => simp [complete, eq_comm]

/-- A step from Running whose handler keeps `running` does not stop. -/
theorem State.stopCheck_of_running {s : State} (h : s.running = true) : s.stopCheck = s := by
  simp [State.stopCheck, h]

end Sys2Proof.Machine
end

