-- ==== Sys2Proof/Laws/Exec.lean ====
section
/-! SUPPORT. What executing an instruction and stepping can do, said once: an instruction is its handler followed by the end of a step,
and a step is a fetch fault, a decoding fault or an instruction. -/

namespace Sys2Proof.Machine

/-- The handler of each instruction, the part of its rule before the PC advance. -/
def handler : Instr → State → Except Raise State
  | .hlt, s => .ok s.clearRunning
  | .ldi reg imm, s => do
    let r ← checkReg reg
    return s.writeReg r imm.toNat
  | .prn reg, s => do
    let r ← checkReg reg
    return s.emit (s.reg r)
  | .add a b, s => applyAlu .add a b s
  | .mul a b, s => applyAlu .mul a b s
  | .push reg, s => do
    let r ← checkReg reg
    pushByte s fun s' => s'.reg r
  | .pop reg, s => do
    let r ← checkReg reg
    let v ← topByte s
    return (s.writeReg r v.toNat).incSp
  | .call reg, s => do
    let r ← checkReg reg
    let back ← returnAddress s
    let s' ← pushByte s fun _ => back
    return s'.jump (s'.reg r)
  | .ret, s => do
    let v ← topByte s
    return (s.jump v).incSp

theorem exec_eq_complete (i : Instr) (s : State) : exec i s = complete i.mnemonic s (handler i s) := by
  cases i <;> rfl

theorem handler_hlt (s : State) : handler .hlt s = .ok s.clearRunning := rfl

theorem handler_ldi {reg : Byte} (h : reg.toNat < 8) (imm : Byte) (s : State) :
    handler (.ldi reg imm) s = .ok (s.writeReg ⟨reg.toNat, h⟩ imm.toNat) := by
  simp [handler, checkReg_of_lt h, bind, Except.bind, pure, Except.pure]

theorem handler_prn {reg : Byte} (h : reg.toNat < 8) (s : State) :
    handler (.prn reg) s = .ok (s.emit (s.reg ⟨reg.toNat, h⟩)) := by
  simp [handler, checkReg_of_lt h, bind, Except.bind, pure, Except.pure]

theorem handler_add {a b : Byte} (ha : a.toNat < 8) (hb : b.toNat < 8) (s : State) :
    handler (.add a b) s =
      .ok (s.writeReg ⟨a.toNat, ha⟩ ((s.reg ⟨a.toNat, ha⟩ + s.reg ⟨b.toNat, hb⟩).toNat)) := by
  simp [handler, applyAlu, alu, checkReg_of_lt ha, checkReg_of_lt hb, bind, Except.bind, pure, Except.pure]

theorem handler_mul {a b : Byte} (ha : a.toNat < 8) (hb : b.toNat < 8) (s : State) :
    handler (.mul a b) s =
      .ok (s.writeReg ⟨a.toNat, ha⟩ ((s.reg ⟨a.toNat, ha⟩ * s.reg ⟨b.toNat, hb⟩).toNat)) := by
  simp [handler, applyAlu, alu, checkReg_of_lt ha, checkReg_of_lt hb, bind, Except.bind, pure, Except.pure]

theorem handler_push {reg : Byte} (h : reg.toNat < 8) (s : State) :
    handler (.push reg) s =
      .ok { s.decSp with mem := s.mem.set s.decSp.sp.toNat (s.decSp.reg ⟨reg.toNat, h⟩) } := by
  simp [handler, checkReg_of_lt h, pushByte_eq, bind, Except.bind]

theorem handler_pop {reg : Byte} (h : reg.toNat < 8) (s : State) :
    handler (.pop reg) s = .ok (s.writeReg ⟨reg.toNat, h⟩ (s.mem.get s.sp.toNat).toNat).incSp := by
  simp [handler, checkReg_of_lt h, topByte_eq, bind, Except.bind, pure, Except.pure]

theorem handler_call {reg : Byte} (h : reg.toNat < 8) {s : State} (hp : s.pc.toNat + 2 < Config.memSize) :
    handler (.call reg) s =
      .ok (State.jump { s.decSp with mem := s.mem.set s.decSp.sp.toNat (BitVec.ofNat 8 (s.pc.toNat + 2)) }
        (s.decSp.reg ⟨reg.toNat, h⟩)) := by
  simp only [handler, checkReg_of_lt h, returnAddress_of_lt s hp, pushByte_eq, bind, Except.bind, pure, Except.pure]
  rfl

theorem handler_ret (s : State) : handler .ret s = .ok (s.jump (s.mem.get s.sp.toNat)).incSp := by
  simp [handler, topByte_eq, bind, Except.bind, pure, Except.pure]

/-- The only faults a handler raises: a register index of 8 or more among its operands, or CALL's return address. -/
theorem handler_error {i : Instr} {s : State} {r : Raise} (h : handler i s = .error r) :
    (∃ b ∈ i.regOperands, 8 ≤ b.toNat ∧ r = .outOfBounds .register (recordAddr b.toNat)) ∨
      (∃ reg, i = .call reg ∧ Config.memSize ≤ s.pc.toNat + 2 ∧
        r = .outOfBounds .memory (recordAddr (s.pc.toNat + 2))) := by
  have one : ∀ (b : Byte), b.toNat < 8 ∨ 8 ≤ b.toNat := fun b => by omega
  cases i with
  | hlt => simp [handler] at h
  | ret => simp [handler_ret] at h
  | ldi b v =>
    rcases one b with hb | hb
    · simp [handler_ldi hb] at h
    · exact .inl ⟨b, by simp [Instr.regOperands], hb, by simpa [handler, checkReg_of_ge hb, bind, Except.bind, eq_comm] using h⟩
  | prn b =>
    rcases one b with hb | hb
    · simp [handler_prn hb] at h
    · exact .inl ⟨b, by simp [Instr.regOperands], hb, by simpa [handler, checkReg_of_ge hb, bind, Except.bind, eq_comm] using h⟩
  | push b =>
    rcases one b with hb | hb
    · simp [handler_push hb] at h
    · exact .inl ⟨b, by simp [Instr.regOperands], hb, by simpa [handler, checkReg_of_ge hb, bind, Except.bind, eq_comm] using h⟩
  | pop b =>
    rcases one b with hb | hb
    · simp [handler_pop hb] at h
    · exact .inl ⟨b, by simp [Instr.regOperands], hb, by simpa [handler, checkReg_of_ge hb, bind, Except.bind, eq_comm] using h⟩
  | call b =>
    rcases one b with hb | hb
    · by_cases hp : s.pc.toNat + 2 < Config.memSize
      · simp [handler_call hb hp] at h
      · refine .inr ⟨b, rfl, by omega, ?_⟩
        simpa [handler, checkReg_of_lt hb, returnAddress_of_ge s (by omega), bind, Except.bind, eq_comm] using h
    · exact .inl ⟨b, by simp [Instr.regOperands], hb, by simpa [handler, checkReg_of_ge hb, bind, Except.bind, eq_comm] using h⟩
  | add a b =>
    rcases one a with ha | ha
    · rcases one b with hb | hb
      · simp [handler_add ha hb] at h
      · exact .inl ⟨b, by simp [Instr.regOperands], hb,
          by simpa [handler, applyAlu, checkReg_of_lt ha, checkReg_of_ge hb, bind, Except.bind, eq_comm] using h⟩
    · exact .inl ⟨a, by simp [Instr.regOperands], ha,
        by simpa [handler, applyAlu, checkReg_of_ge ha, bind, Except.bind, eq_comm] using h⟩
  | mul a b =>
    rcases one a with ha | ha
    · rcases one b with hb | hb
      · simp [handler_mul ha hb] at h
      · exact .inl ⟨b, by simp [Instr.regOperands], hb,
          by simpa [handler, applyAlu, checkReg_of_lt ha, checkReg_of_ge hb, bind, Except.bind, eq_comm] using h⟩
    · exact .inl ⟨a, by simp [Instr.regOperands], ha,
        by simpa [handler, applyAlu, checkReg_of_ge ha, bind, Except.bind, eq_comm] using h⟩

/-- Everything executing an instruction can do: take the handler's fault, or end the step from the handler's state. -/
theorem exec_eq_next {i : Instr} {s t : State} :
    exec i s = .next t ↔
      (∃ s', handler i s = .ok s' ∧ t = (s'.advance i.mnemonic).stopCheck) ∨
        (∃ r, handler i s = .error r ∧ t = s.takeFault r) := by
  rw [exec_eq_complete, complete_eq_next]

/-- Executing an instruction always answers a next state. -/
theorem exec_next (i : Instr) (s : State) : ∃ t, exec i s = .next t := by
  rw [exec_eq_complete]
  cases handler i s with
  | ok s' => exact ⟨_, rfl⟩
  | error r => exact ⟨_, rfl⟩

/-! ### Stepping -/

theorem stepUnder_of_running {c : Config} {s : State} (h : s.execState = .running) :
    stepUnder c s = match nextInstr c s with
      | .error r => .next (s.takeFault r)
      | .ok i => exec i s := by
  cases hn : nextInstr c s <;> simp [stepUnder, h, hn]

/-- Everything a step can do: nothing outside Running; in Running, take the fault of the fetch or the decoding, or execute the
instruction read. -/
theorem stepUnder_cases {c : Config} {s t : State} (h : stepUnder c s = .next t) :
    (s.execState ≠ .running ∧ t = s) ∨
      (s.execState = .running ∧ ∃ r, nextInstr c s = .error r ∧ t = s.takeFault r) ∨
        (s.execState = .running ∧ ∃ i, nextInstr c s = .ok i ∧ exec i s = .next t) := by
  cases hs : s.execState with
  | stopped =>
    simp only [stepUnder, hs, Host.Outcome.next.injEq] at h
    exact .inl ⟨by simp, h.symm⟩
  | faulted =>
    simp only [stepUnder, hs, Host.Outcome.next.injEq] at h
    exact .inl ⟨by simp, h.symm⟩
  | running =>
    rw [stepUnder_of_running hs] at h
    cases hn : nextInstr c s with
    | error r =>
      simp only [hn, Host.Outcome.next.injEq] at h
      exact .inr (.inl ⟨rfl, r, rfl, h.symm⟩)
    | ok i =>
      simp only [hn] at h
      exact .inr (.inr ⟨rfl, i, rfl, h⟩)

end Sys2Proof.Machine
end

