-- ==== Sys2Proof/Laws/Cycle.lean ====
section
/-! SUPPORT. The fetch at every address, what an instruction that was read says about PC, and what a handler keeps. -/

namespace Sys2Proof.Machine

/-! ### The fetch -/

theorem fetchOperand_of_lt (mode : SpecFetchOob) (s : State) {a : Nat} (h : a < Config.memSize) :
    fetchOperand mode s a = .ok (.byte (s.mem.get a)) := by
  cases mode <;> simp [fetchOperand, State.memRead_of_lt s h, h, bind, Except.bind, pure, Except.pure]

theorem fetchOperand_fault_of_ge (s : State) {a : Nat} (h : Config.memSize ≤ a) :
    fetchOperand .fault s a = .error (.outOfBounds .memory (recordAddr a)) := by
  simp [fetchOperand, State.memRead_of_ge s h, bind, Except.bind]

theorem fetchOperand_ignore_of_ge (s : State) {a : Nat} (h : Config.memSize ≤ a) :
    fetchOperand .ignore s a = .ok (.absent (recordAddr a)) := by
  simp [fetchOperand, Nat.not_lt.2 h]

/-- The opcode byte of a PC beyond memory cannot be read. -/
theorem fetch_of_pc_ge (mode : SpecFetchOob) (s : State) (h : Config.memSize ≤ s.pc.toNat) :
    fetch mode s = .error (.outOfBounds .memory (recordAddr s.pc.toNat)) := by
  simp [fetch, State.memRead_of_ge s h, bind, Except.bind]

/-- Where all three bytes lie in memory the fetch latches them, in either mode. -/
theorem fetch_of_lt (mode : SpecFetchOob) (s : State) (h : s.pc.toNat + 2 < Config.memSize) :
    fetch mode s = .ok ⟨s.mem.get s.pc.toNat, .byte (s.mem.get (s.pc.toNat + 1)),
      .byte (s.mem.get (s.pc.toNat + 2))⟩ := by
  simp [fetch, State.memRead_of_lt s (show s.pc.toNat < Config.memSize by omega),
    fetchOperand_of_lt mode s (show s.pc.toNat + 1 < Config.memSize by omega), fetchOperand_of_lt mode s h,
    bind, Except.bind, pure, Except.pure]

/-- A fetch that answers read its opcode byte at PC, inside memory. -/
theorem fetch_ok_ir {mode : SpecFetchOob} {s : State} {l : Latches} (h : fetch mode s = .ok l) :
    s.pc.toNat < Config.memSize ∧ l.ir = s.mem.get s.pc.toNat ∧
      fetchOperand mode s (s.pc.toNat + 1) = .ok l.opA ∧ fetchOperand mode s (s.pc.toNat + 2) = .ok l.opB := by
  by_cases hp : s.pc.toNat < Config.memSize
  · simp only [fetch, State.memRead_of_lt s hp, bind, Except.bind, pure, Except.pure] at h
    cases ha : fetchOperand mode s (s.pc.toNat + 1) with
    | error r => simp [ha] at h
    | ok a =>
      cases hb : fetchOperand mode s (s.pc.toNat + 2) with
      | error r => simp [ha, hb] at h
      | ok b =>
        simp only [ha, hb, Except.ok.injEq] at h
        subst h
        exact ⟨hp, rfl, rfl, rfl⟩
  · rw [fetch_of_pc_ge mode s (by omega)] at h
    simp at h

/-- A latched operand that is a byte was read inside memory. -/
theorem fetchOperand_byte {mode : SpecFetchOob} {s : State} {a : Nat} {v : Byte}
    (h : fetchOperand mode s a = .ok (.byte v)) : a < Config.memSize ∧ v = s.mem.get a := by
  by_cases ha : a < Config.memSize
  · rw [fetchOperand_of_lt mode s ha] at h
    exact ⟨ha, by simpa [eq_comm] using h⟩
  · cases mode with
    | fault => simp [fetchOperand_fault_of_ge s (Nat.not_lt.1 ha)] at h
    | ignore => simp [fetchOperand_ignore_of_ge s (Nat.not_lt.1 ha)] at h

/-! ### The instruction read -/

theorem nextInstr_eq_ok {c : Config} {s : State} {i : Instr} :
    nextInstr c s = .ok i ↔ ∃ l, fetch c.specFetchOob s = .ok l ∧ decode c.opcodeMap l = .ok i := by
  simp only [nextInstr, decodeLatched, bind, Except.bind]
  cases hf : fetch c.specFetchOob s with
  | error r => simp
  | ok l => cases hd : decode c.opcodeMap l <;> simp [hd]

theorem decode_eq_ok {m : OpcodeMap} {l : Latches} {i : Instr} (h : decode m l = .ok i) :
    m.lookup l.ir = some i.mnemonic ∧ decodeOperands l i.mnemonic = .ok i := by
  rw [decode_eq] at h
  cases hl : m.lookup l.ir with
  | none => simp [hl] at h
  | some a =>
    simp only [hl] at h
    have ha := (decodeOperands_eq_ok h).1
    subst ha
    exact ⟨rfl, h⟩

/-- An instruction that was read lies inside memory with all its bytes, and the byte at PC is its opcode byte. -/
theorem nextInstr_ok_bytes {c : Config} {s : State} {i : Instr} (h : nextInstr c s = .ok i) :
    s.pc.toNat + i.mnemonic.operandCount < Config.memSize ∧
      c.opcodeMap.byteOf i.mnemonic = s.mem.get s.pc.toNat := by
  obtain ⟨l, hf, hd⟩ := nextInstr_eq_ok.1 h
  obtain ⟨hp, hir, ha, hb⟩ := fetch_ok_ir hf
  obtain ⟨hl, ho⟩ := decode_eq_ok hd
  refine ⟨?_, (OpcodeMap.byteOf_of_lookup hl).trans hir⟩
  have hops := (decodeOperands_eq_ok ho).2
  obtain ⟨ir, p, q⟩ := l
  have hA := @fetchOperand_byte c.specFetchOob s (s.pc.toNat + 1)
  have hB := @fetchOperand_byte c.specFetchOob s (s.pc.toNat + 2)
  cases i <;> simp [Instr.operands, Instr.mnemonic, Mnemonic.operandCount] at hops ⊢ <;>
    first
      | exact hp
      | (subst hops; exact (hA ha).1)
      | (obtain ⟨rfl, rfl⟩ := hops; exact (hB hb).1)

/-- No step raises UnsupportedALUOperation before its handler. -/
theorem nextInstr_error_ne_alu {c : Config} {s : State} {r : Raise} (h : nextInstr c s = .error r) :
    r ≠ .unsupportedAlu := by
  rintro rfl
  have hread : ∀ a, s.memRead a ≠ .error .unsupportedAlu := fun a => by
    unfold State.memRead; split <;> simp
  have hop : ∀ a, fetchOperand c.specFetchOob s a ≠ .error .unsupportedAlu := fun a => by
    by_cases ha : a < Config.memSize
    · simp [fetchOperand_of_lt _ s ha]
    · cases c.specFetchOob
      · simp [fetchOperand_fault_of_ge s (Nat.not_lt.1 ha)]
      · simp [fetchOperand_ignore_of_ge s (Nat.not_lt.1 ha)]
  simp only [nextInstr, fetch, bind, Except.bind, pure, Except.pure] at h
  cases h1 : s.memRead s.pc.toNat with
  | error r => simp only [h1, Except.error.injEq] at h; exact hread _ (h ▸ h1)
  | ok ir =>
    cases h2 : fetchOperand c.specFetchOob s (s.pc.toNat + 1) with
    | error r => simp only [h1, h2, Except.error.injEq] at h; exact hop _ (h ▸ h2)
    | ok a =>
      cases h3 : fetchOperand c.specFetchOob s (s.pc.toNat + 2) with
      | error r => simp only [h1, h2, h3, Except.error.injEq] at h; exact hop _ (h ▸ h3)
      | ok b =>
        simp only [h1, h2, h3, decodeLatched] at h
        cases hd : decode c.opcodeMap ⟨ir, a, b⟩ with
        | ok i => simp [hd] at h
        | error e => cases e <;> simp [hd, raiseOf] at h

/-! ### What a handler answers -/

/-- The one state a handler can answer, for each instruction, with its register operands and its return address in range. -/
def HandlerAnswer (s s' : State) : Instr → Prop
  | .hlt => s' = s.clearRunning
  | .ldi reg imm => ∃ hr : reg.toNat < 8, s' = s.writeReg ⟨reg.toNat, hr⟩ imm.toNat
  | .prn reg => ∃ hr : reg.toNat < 8, s' = s.emit (s.reg ⟨reg.toNat, hr⟩)
  | .add a b => ∃ (ha : a.toNat < 8) (hb : b.toNat < 8),
      s' = s.writeReg ⟨a.toNat, ha⟩ (s.reg ⟨a.toNat, ha⟩ + s.reg ⟨b.toNat, hb⟩).toNat
  | .mul a b => ∃ (ha : a.toNat < 8) (hb : b.toNat < 8),
      s' = s.writeReg ⟨a.toNat, ha⟩ (s.reg ⟨a.toNat, ha⟩ * s.reg ⟨b.toNat, hb⟩).toNat
  | .push reg => ∃ hr : reg.toNat < 8,
      s' = { s.decSp with mem := s.mem.set s.decSp.sp.toNat (s.decSp.reg ⟨reg.toNat, hr⟩) }
  | .pop reg => ∃ hr : reg.toNat < 8, s' = (s.writeReg ⟨reg.toNat, hr⟩ (s.mem.get s.sp.toNat).toNat).incSp
  | .call reg => ∃ hr : reg.toNat < 8, s.pc.toNat + 2 < Config.memSize ∧
      s' = State.jump { s.decSp with mem := s.mem.set s.decSp.sp.toNat (BitVec.ofNat 8 (s.pc.toNat + 2)) }
        (s.decSp.reg ⟨reg.toNat, hr⟩)
  | .ret => s' = (s.jump (s.mem.get s.sp.toNat)).incSp

/-- Everything a handler can answer. -/
theorem handler_ok_cases {i : Instr} {s s' : State} (h : handler i s = .ok s') : HandlerAnswer s s' i := by
  have bad : ∀ {b : Byte}, ¬ b.toNat < 8 → checkReg b = .error (.outOfBounds .register (recordAddr b.toNat)) :=
    fun hb => checkReg_of_ge (Nat.not_lt.1 hb)
  cases i with
  | hlt => simpa [HandlerAnswer, handler, eq_comm] using h
  | ret => simpa [HandlerAnswer, handler_ret, eq_comm] using h
  | ldi b v =>
    by_cases hb : b.toNat < 8
    · exact ⟨hb, by simpa only [handler_ldi hb, Except.ok.injEq, eq_comm] using h⟩
    · simp [handler, bad hb, bind, Except.bind] at h
  | prn b =>
    by_cases hb : b.toNat < 8
    · exact ⟨hb, by simpa only [handler_prn hb, Except.ok.injEq, eq_comm] using h⟩
    · simp [handler, bad hb, bind, Except.bind] at h
  | push b =>
    by_cases hb : b.toNat < 8
    · exact ⟨hb, by simpa only [handler_push hb, Except.ok.injEq, eq_comm] using h⟩
    · simp [handler, bad hb, bind, Except.bind] at h
  | pop b =>
    by_cases hb : b.toNat < 8
    · exact ⟨hb, by simpa only [handler_pop hb, Except.ok.injEq, eq_comm] using h⟩
    · simp [handler, bad hb, bind, Except.bind] at h
  | call b =>
    by_cases hb : b.toNat < 8
    · by_cases hp : s.pc.toNat + 2 < Config.memSize
      · exact ⟨hb, hp, by simpa only [handler_call hb hp, Except.ok.injEq, eq_comm] using h⟩
      · simp [handler, checkReg_of_lt hb, returnAddress_of_ge s (Nat.not_lt.1 hp), bind, Except.bind] at h
    · simp [handler, bad hb, bind, Except.bind] at h
  | add a b =>
    by_cases ha : a.toNat < 8
    · by_cases hb : b.toNat < 8
      · exact ⟨ha, hb, by simpa only [handler_add ha hb, Except.ok.injEq, eq_comm] using h⟩
      · simp [handler, applyAlu, checkReg_of_lt ha, bad hb, bind, Except.bind] at h
    · simp [handler, applyAlu, bad ha, bind, Except.bind] at h
  | mul a b =>
    by_cases ha : a.toNat < 8
    · by_cases hb : b.toNat < 8
      · exact ⟨ha, hb, by simpa only [handler_mul ha hb, Except.ok.injEq, eq_comm] using h⟩
      · simp [handler, applyAlu, checkReg_of_lt ha, bad hb, bind, Except.bind] at h
    · simp [handler, applyAlu, bad ha, bind, Except.bind] at h

/-- A handler writes neither the fault record nor the execution state, and keeps memory canonical. -/
theorem handler_keeps {i : Instr} {s s' : State} (h : handler i s = .ok s') :
    s'.fault = s.fault ∧ s'.execState = s.execState ∧ (s.mem.wf = true → s'.mem.wf = true) := by
  have hc := handler_ok_cases h
  cases i with
  | hlt => cases hc; exact ⟨rfl, rfl, id⟩
  | ldi b v => obtain ⟨_, rfl⟩ := hc; exact ⟨rfl, rfl, id⟩
  | prn b => obtain ⟨_, rfl⟩ := hc; exact ⟨rfl, rfl, id⟩
  | add a b => obtain ⟨_, _, rfl⟩ := hc; exact ⟨rfl, rfl, id⟩
  | mul a b => obtain ⟨_, _, rfl⟩ := hc; exact ⟨rfl, rfl, id⟩
  | push b => obtain ⟨_, rfl⟩ := hc; exact ⟨rfl, rfl, Memory.wf_set (byte_lt_memSize _) _⟩
  | pop b => obtain ⟨_, rfl⟩ := hc; exact ⟨rfl, rfl, id⟩
  | call b => obtain ⟨_, _, rfl⟩ := hc; exact ⟨rfl, rfl, Memory.wf_set (byte_lt_memSize _) _⟩
  | ret => cases hc; exact ⟨rfl, rfl, id⟩

end Sys2Proof.Machine
end

