-- ==== Sys2Proof/Laws/PerInstr.lean ====
section
/-! SUPPORT. Facts about each instruction as syntax: how long its encoding is, what its first byte is, and when it is well-formed. -/

namespace Sys2Proof.Laws.Encoded

/-- Under every map the encoding has the instruction's length and begins with its opcode byte; its operand bytes are as many as its mnemonic
takes; and it is well-formed exactly when each register operand is below 8. -/
def Statement (i : Instr) : Prop :=
  (∀ m : OpcodeMap, (encode m i).length = i.length ∧ (encode m i).head? = some (m.byteOf i.mnemonic)) ∧
    i.operands.length = i.mnemonic.operandCount ∧
    (i.wellFormed = true ↔ ∀ b ∈ i.regOperands, b.toNat < 8)

theorem statement_of (i : Instr) : Statement i :=
  ⟨fun m => ⟨encode_length m i, rfl⟩, Instr.length_operands i, by
    simp only [Instr.wellFormed, List.all_eq_true, regOperandOk, decide_eq_true_eq]; exact Iff.rfl⟩

theorem hlt : Statement .hlt := statement_of _
theorem ldi (reg imm : Byte) : Statement (.ldi reg imm) := statement_of _
theorem prn (reg : Byte) : Statement (.prn reg) := statement_of _
theorem add (regA regB : Byte) : Statement (.add regA regB) := statement_of _
theorem mul (regA regB : Byte) : Statement (.mul regA regB) := statement_of _
theorem push (reg : Byte) : Statement (.push reg) := statement_of _
theorem pop (reg : Byte) : Statement (.pop reg) := statement_of _
theorem call (reg : Byte) : Statement (.call reg) := statement_of _
theorem ret : Statement .ret := statement_of _

end Sys2Proof.Laws.Encoded
end

