-- ==== Sys2Proof/Tests/Slice0.lean ====
section
/-! SUPPORT. The model's own tests: well-formedness, decoding by words written out from the spec, one step per instruction from the vectors of
95_test_vectors.md, and for each statement with hypotheses a witness that meets them. -/

namespace Sys2Proof.Tests

open Sys2Proof.Machine

/-! ### Helpers -/

/-- The reset state, Running, with bytes placed at `pc` and PC there. -/
def runningAt (pc : Nat) (bytes : List Byte) : State :=
  { State.reset with mem := Memory.place [] pc bytes, pc := BitVec.ofNat 9 pc }.enterRunning

/-- A state with one register set. -/
def withReg (s : State) (i : RegIdx) (v : Nat) : State := s.writeReg i v

/-- A state with one byte of memory set. -/
def withByte (s : State) (a : Nat) (v : Byte) : State := { s with mem := s.mem.set a v }

/-- The next state, or the reset state where there is none. -/
def after : Result → State
  | .next t => t
  | .fault _ => State.reset
  | .refused _ => State.reset

/-- The other value of SPEC_FETCH_OOB. -/
def ignoring : Config := { Config.default with specFetchOob := .ignore }

/-- Another opcode map that R67 allows: bits 5 and 3:0 chosen otherwise than in the default. -/
def otherMap : OpcodeMap where
  hlt := 0b00000000#8
  ldi := 0b10000000#8
  prn := 0b01000000#8
  add := 0b10000001#8
  mul := 0b10100000#8
  push := 0b01000001#8
  pop := 0b01000010#8
  call := 0b01110000#8
  ret := 0b00010000#8

/-! ### Well-formedness: each check refuses an ill-formed term -/

theorem test_ldi_register_eight_ill_formed : (Instr.ldi 8#8 0#8).wellFormed = false := by decide
theorem test_ldi_immediate_is_no_register : (Instr.ldi 7#8 255#8).wellFormed = true := by decide
theorem test_prn_register_nine_ill_formed : (Instr.prn 9#8).wellFormed = false := by decide
theorem test_add_second_register_ill_formed : (Instr.add 0#8 8#8).wellFormed = false := by decide
theorem test_add_first_register_ill_formed : (Instr.add 255#8 0#8).wellFormed = false := by decide
theorem test_mul_second_register_ill_formed : (Instr.mul 7#8 10#8).wellFormed = false := by decide
theorem test_push_register_eight_ill_formed : (Instr.push 8#8).wellFormed = false := by decide
theorem test_pop_register_twelve_ill_formed : (Instr.pop 12#8).wellFormed = false := by decide
theorem test_call_register_eight_ill_formed : (Instr.call 8#8).wellFormed = false := by decide

/-! ### Decoding: the words of 30_encoding.md R66 written out bit by bit -/

theorem test_default_map_valid : OpcodeMap.default.Valid := by decide
theorem test_other_map_valid : otherMap.Valid := by decide
/-- A map whose CALL lacks the PC-setting bit breaks R67. -/
theorem test_map_without_pcset_invalid : ¬ { OpcodeMap.default with call := 0b01000000#8 }.Valid := by decide
/-- R68: 247 of the 256 opcode bytes are illegal under the default map. -/
theorem test_illegal_opcode_count :
    ((List.range 256).filter fun b => (OpcodeMap.default.lookup (BitVec.ofNat 8 b)).isNone).length = 247 := by decide +kernel
theorem test_decode_hlt : decode OpcodeMap.default (Latches.ofBytes [0b00000001#8]) = .ok .hlt := rfl
theorem test_decode_ldi : decode OpcodeMap.default (Latches.ofBytes [0b10000010#8, 3#8, 0xFF#8]) = .ok (.ldi 3#8 0xFF#8) := rfl
theorem test_decode_prn : decode OpcodeMap.default (Latches.ofBytes [0b01000111#8, 7#8]) = .ok (.prn 7#8) := rfl
theorem test_decode_add : decode OpcodeMap.default (Latches.ofBytes [0b10100000#8, 2#8, 1#8]) = .ok (.add 2#8 1#8) := rfl
theorem test_decode_mul : decode OpcodeMap.default (Latches.ofBytes [0b10100010#8, 5#8, 6#8]) = .ok (.mul 5#8 6#8) := rfl
theorem test_decode_push : decode OpcodeMap.default (Latches.ofBytes [0b01000101#8, 4#8]) = .ok (.push 4#8) := rfl
theorem test_decode_pop : decode OpcodeMap.default (Latches.ofBytes [0b01000110#8, 12#8]) = .ok (.pop 12#8) := rfl
theorem test_decode_call : decode OpcodeMap.default (Latches.ofBytes [0b01010000#8, 1#8]) = .ok (.call 1#8) := rfl
theorem test_decode_ret : decode OpcodeMap.default (Latches.ofBytes [0b00010001#8]) = .ok .ret := rfl
/-- V-DEC-4: bit 5 set, not in the map. -/
theorem test_decode_a1_unknown : decode OpcodeMap.default (Latches.ofBytes [0xA1#8]) = .error (.unknownOpcode 0xA1#8) := rfl
theorem test_encode_ldi : encode OpcodeMap.default (.ldi 0#8 8#8) = [0x82#8, 0#8, 8#8] := by decide
/-- The source's own line of assembly (30_encoding.md R71). -/
theorem test_assemble_source_line : assembleLine OpcodeMap.default "MUL R0,R1".toList = some [0xA2#8, 0#8, 1#8] := by decide
theorem test_assemble_hex_and_blanks : parseLine "LDI SP, 0xfF".toList = some (.ldi 7#8 255#8) := by decide
theorem test_assemble_register_eight_refused : parseLine "PRN R8".toList = none := by decide

/-! ### One step per instruction (95_test_vectors.md) -/

/-- V-HLT-2 -/
theorem test_hlt_at_253 :
    let t := after (step (runningAt 253 [0x01#8]))
    t.running = false ∧ t.execState = .stopped ∧ t.pc = 254#9 := by decide
/-- V-HLT-5, under `ignore` -/
theorem test_hlt_at_255_ignore :
    let t := after (stepUnder ignoring (runningAt 255 [0x01#8]))
    t.execState = .stopped ∧ t.pc = 256#9 := by decide
/-- V-LDI-4, the first step -/
theorem test_ldi_at_253 :
    let t := after (step (runningAt 253 [0x82#8, 0#8, 5#8]))
    t.reg 0 = 5#8 ∧ t.pc = 256#9 ∧ t.execState = .running := by decide
/-- V-LDI-3 -/
theorem test_ldi_register_eight_faults :
    (after (step (runningAt 0 [0x82#8, 8#8, 5#8]))).fault = ⟨.outOfBounds, 0#9, 0x82#8, .register, 8#9⟩ := by decide
/-- V-PRN-2 -/
theorem test_prn_sp : (after (step (runningAt 0 [0x47#8, 7#8]))).out = [244#8] := by decide
/-- V-PRN-3 -/
theorem test_prn_register_nine_faults :
    let t := after (step (runningAt 0 [0x47#8, 9#8]))
    t.out = [] ∧ t.fault = ⟨.outOfBounds, 0#9, 0x47#8, .register, 9#9⟩ ∧ t.execState = .faulted := by decide
/-- V-ADD-5 -/
theorem test_add_to_sp_wraps : (after (step (withReg (runningAt 0 [0xA0#8, 7#8, 0#8]) 0 12))).sp = 0#8 := by decide
/-- V-ADD-7: regA is checked first. -/
theorem test_add_checks_first_register :
    (after (step (runningAt 0 [0xA0#8, 9#8, 8#8]))).fault = ⟨.outOfBounds, 0#9, 0xA0#8, .register, 9#9⟩ := by decide
/-- V-MUL-5: the source is the destination. -/
theorem test_mul_squares : (after (step (withReg (runningAt 0 [0xA2#8, 1#8, 1#8]) 1 15))).reg 1 = 225#8 := by decide
/-- V-MUL-3 -/
theorem test_mul_keeps_low_byte :
    (after (step (withReg (withReg (runningAt 0 [0xA2#8, 0#8, 1#8]) 0 255) 1 255))).reg 0 = 1#8 := by decide
/-- V-PUSH-2 -/
theorem test_push_wraps :
    let t := after (step (withReg (withReg (runningAt 0 [0x45#8, 1#8]) 7 0) 1 7))
    t.sp = 255#8 ∧ t.memRead 255 = .ok 7#8 := ⟨by decide, rfl⟩
/-- V-PUSH-3 -/
theorem test_push_sp_stores_decremented : (after (step (runningAt 0 [0x45#8, 7#8]))).memRead 0xF3 = .ok 0xF3#8 := rfl
/-- V-POP-2 -/
theorem test_pop_wraps :
    let t := after (step (withByte (withReg (runningAt 0 [0x46#8, 2#8]) 7 255) 255 9#8))
    t.reg 2 = 9#8 ∧ t.sp = 0#8 := by decide
/-- V-POP-3 -/
theorem test_pop_sp_increments_popped :
    (after (step (withByte (withReg (runningAt 0 [0x46#8, 7#8]) 7 0xF3) 0xF3 0x20#8))).sp = 0x21#8 := by decide
/-- V-CALL-2: CALL R7 jumps to the decremented SP. -/
theorem test_call_sp :
    let t := after (step (runningAt 0 [0x50#8, 7#8]))
    t.sp = 0xF3#8 ∧ t.pc = 0xF3#9 ∧ t.memRead 0xF3 = .ok 2#8 := ⟨by decide, by decide, rfl⟩
/-- P7, step 243: CALL overwrites its own operand byte and still uses the one it latched. -/
theorem test_call_uses_latched_operand :
    let t := after (step (withReg (runningAt 0 [0x50#8, 0#8]) 7 2))
    t.memRead 1 = .ok 2#8 ∧ t.pc = 0#9 ∧ t.sp = 1#8 := ⟨rfl, by decide, by decide⟩
/-- V-RET-2 -/
theorem test_ret_at_reset_sp :
    let t := after (step (runningAt 5 [0x11#8]))
    t.pc = 0#9 ∧ t.sp = 0xF5#8 := by decide
/-- V-RET-3 -/
theorem test_ret_wraps :
    let t := after (step (withByte (withReg (runningAt 0 [0x11#8]) 7 255) 255 0x40#8))
    t.pc = 0x40#9 ∧ t.sp = 0#8 := by decide

/-! ### Witnesses: each meets the hypotheses of one statement, at the boundaries of its clauses -/

theorem witness_DecodeInvertsEncode :
    OpcodeMap.default.Valid ∧ decode OpcodeMap.default (Latches.ofBytes (encode OpcodeMap.default (.ldi 255#8 0#8) ++ [9#8])) =
      .ok (.ldi 255#8 0#8) := ⟨by decide, rfl⟩

theorem witness_HandlerGetsDeclaredOperands :
    let s := runningAt 0 [0x45#8, 4#8, 77#8]
    Valid Config.default ∧ s.execState = .running ∧ fetch .fault s = .ok ⟨0x45#8, .byte 4#8, .byte 77#8⟩ ∧
      decode OpcodeMap.default ⟨0x45#8, .byte 4#8, .byte 77#8⟩ = .ok (.push 4#8) := ⟨by decide, rfl, rfl, rfl⟩

theorem witness_OpcodeBitsGiveLengthAndPcset : otherMap.Valid ∧ otherMap.lookup 0x70#8 = some .call := by decide

theorem witness_UnusedOperandBytesNeverMatter :
    OpcodeMap.default.Valid ∧ opcField 0x45#8 = 1 ∧
      decode OpcodeMap.default ⟨0x45#8, .byte 1#8, .byte 2#8⟩ = decode OpcodeMap.default ⟨0x45#8, .byte 1#8, .absent 256#9⟩ :=
  ⟨by decide, by decide, rfl⟩

theorem witness_AssemblyTextRoundTrips : (Instr.ldi 7#8 255#8).wellFormed = true ∧ parseLine (instrText (.ldi 7#8 255#8)) = some (.ldi 7#8 255#8) := by
  decide

theorem witness_StepRunsDecodedInstruction :
    let s := runningAt 253 [0xA0#8, 7#8, 0#8]
    s.execState = .running ∧ nextInstr Config.default s = .ok (.add 7#8 0#8) ∧ s.pc.toNat + 2 < 256 ∧
      s.memRead 253 = .ok 0xA0#8 ∧ s.memRead 254 = .ok 7#8 ∧ s.memRead 255 = .ok 0#8 := ⟨rfl, rfl, by decide, rfl, rfl, rfl⟩

/-- Every clause of the fetch order: PC 256, operand A absent (255), operand B absent (254), all three read (253). -/
theorem witness_FetchReadsThreeBytesInOrder :
    256 ≤ (runningAt 256 []).pc.toNat ∧
      fetchOperand .fault (runningAt 255 []) 256 = .error (.outOfBounds .memory 256#9) ∧
      fetchOperand .fault (runningAt 254 []) 255 = .ok (.byte 0#8) ∧
      fetchOperand .fault (runningAt 254 []) 256 = .error (.outOfBounds .memory 256#9) ∧
      fetchOperand .ignore (runningAt 254 []) 256 = .ok (.absent 256#9) ∧
      fetch .fault (runningAt 253 [1#8, 2#8, 3#8]) = .ok ⟨1#8, .byte 2#8, .byte 3#8⟩ := ⟨by decide, rfl, rfl, rfl, rfl, rfl⟩

/-- Every clause of the priority: V-DEC-7, V-DEC-5, V-DEC-6, V-LDI-5, V-HLT-4 and PC 253. -/
theorem witness_StepFaultPriority :
    (after (step (runningAt 256 []))).fault = ⟨.outOfBounds, 256#9, 0#8, .memory, 256#9⟩ ∧
      (after (step (runningAt 254 [0xFF#8]))).fault = ⟨.outOfBounds, 254#9, 0xFF#8, .memory, 256#9⟩ ∧
      (after (step (runningAt 255 [0x01#8]))).fault = ⟨.outOfBounds, 255#9, 0x01#8, .memory, 256#9⟩ ∧
      (after (stepUnder ignoring (runningAt 255 [0xFF#8]))).fault.code = .unknownOpcode ∧
      (after (stepUnder ignoring (runningAt 254 [0x82#8, 0#8]))).fault = ⟨.outOfBounds, 254#9, 0x82#8, .memory, 256#9⟩ ∧
      (after (stepUnder ignoring (runningAt 254 [0x01#8]))).pc = 255#9 ∧
      (after (step (runningAt 253 [0xFF#8]))).fault.code = .unknownOpcode := by decide

theorem witness_UnknownOpcodeIsTaken :
    let s := runningAt 0 [0xC0#8]
    s.execState = .running ∧ fetch Config.default.specFetchOob s = .ok ⟨0xC0#8, .byte 0#8, .byte 0#8⟩ ∧
      (∀ a, Config.default.opcodeMap.byteOf a ≠ 0xC0#8) := ⟨rfl, rfl, by intro a; cases a <;> decide⟩

theorem witness_UnloadedByteIsUnknownOpcode :
    let s := runningAt 253 []
    s.execState = .running ∧ s.pc.toNat + 2 < 256 ∧ s.memRead s.pc.toNat = .ok 0#8 := ⟨rfl, by decide, rfl⟩

theorem witness_NotRunningChangesNothing :
    State.reset.execState ≠ .running ∧ ((runningAt 0 []).takeFault .unknownOpcode).execState ≠ .running := by decide

/-- One step that advances (pcset 0) and one that sets PC (pcset 1), with the bytes their opcode bits come from. -/
theorem witness_PcAdvancesByOpcodeBits :
    Valid Config.default ∧ (runningAt 253 [0x82#8]).memRead 253 = .ok 0x82#8 ∧ pcsetField 0x82#8 = false ∧
      (after (step (runningAt 253 [0x82#8]))).execState ≠ .faulted ∧
      (runningAt 0 [0x11#8]).memRead 0 = .ok 0x11#8 ∧ pcsetField 0x11#8 = true ∧
      (after (step (runningAt 0 [0x11#8]))).execState ≠ .faulted :=
  ⟨by decide, rfl, by decide, by decide, rfl, by decide, by decide⟩

theorem runningAt_inv : (runningAt 253 [0x01#8]).Inv :=
  ⟨by decide, by decide, by decide, by decide, by decide, by decide⟩

theorem witness_OnlyHltStopsTheRun :
    let s := runningAt 253 [0x01#8]
    s.Inv ∧ s.execState = .running ∧ (∃ t, stepUnder Config.default s = .next t ∧ t.execState ≠ .faulted) ∧
      nextInstr Config.default s = .ok .hlt := ⟨runningAt_inv, rfl, ⟨_, rfl, by decide⟩, rfl⟩

theorem witness_TakingAFaultWritesOnlyTheRecord :
    (runningAt 255 [0x82#8]).memRead 255 = .ok 0x82#8 ∧ 256 ≤ (runningAt 256 []).pc.toNat := ⟨rfl, by decide⟩

theorem witness_FaultsArePrecise :
    (∃ t, EndsAbnormally Config.default (runningAt 0 [0x45#8, 8#8]) t) ∧ (∃ t, EndsAbnormally Config.default (runningAt 256 []) t) :=
  ⟨⟨_, rfl, rfl, rfl⟩, ⟨_, rfl, rfl, rfl⟩⟩

theorem witness_RegisterIndexBeyondSevenFaults : 8 ≤ (8#8 : Byte).toNat ∧ 8 ≤ (255#8 : Byte).toNat ∧ (7#8 : Byte).toNat < 8 := by decide

theorem witness_OnlyResetLeavesFaulted :
    let s := (runningAt 0 []).takeFault .unknownOpcode
    s.execState = .faulted ∧ (∃ t, hostMove .reset s = .next t ∧ t ≠ s) := ⟨rfl, ⟨_, rfl, by decide⟩⟩

theorem witness_UnsupportedAluIsUnreachable :
    (runningAt 0 [0x45#8, 8#8]).fault.code ≠ .unsupportedAlu ∧ (∃ t, stepUnder Config.default (runningAt 0 [0x45#8, 8#8]) = .next t) ∧
      (7#8 : Byte).toNat < 8 := ⟨by decide, ⟨_, rfl⟩, by decide⟩

theorem witness_ResetValues : (255 < 256) ∧ State.reset.memRead 255 = .ok 0#8 ∧
    State.reset.memRead 256 = .error (.outOfBounds .memory 256#9) := ⟨by decide, rfl, rfl⟩

theorem witness_EveryStepKeepsInvariant :
    (runningAt 253 [0x01#8]).Inv ∧ (∃ t, step (runningAt 253 [0x01#8]) = .next t) := ⟨runningAt_inv, ⟨_, rfl⟩⟩

/-- A faulted state is reachable: start from reset, and the first step meets the unloaded byte 0. -/
theorem witness_ReachableStatesMeetInvariant : ∃ s, Reachable Config.default s ∧ s.execState = .faulted :=
  ⟨_, .step (.host .start .reset rfl) rfl, rfl⟩

theorem witness_RegisterWritesTruncate :
    let s := withReg (runningAt 253 []) 7 0
    let u := withReg (runningAt 0 []) 7 255
    s.sp = 0#8 ∧ s.pc.toNat + 2 < 256 ∧ (7#8 : Byte).toNat < 8 ∧ u.sp = 255#8 ∧ (6#8 : Byte).toNat < 7 ∧
      trunc8 (-1) = 255#8 ∧ trunc8 256 = 0#8 := by decide

theorem witness_MemoryReadAfterWrite :
    (withByte State.reset 255 1#8).mem.wf = true ∧ (withByte (withByte State.reset 255 1#8) 255 0#8).mem = [] := by decide

theorem witness_FetchSeesStoredByte :
    let s := withReg (runningAt 0 [0x45#8, 7#8]) 7 4
    let c := withReg (runningAt 253 [0x50#8, 0#8]) 7 4
    s.mem.wf = true ∧ c.mem.wf = true ∧ c.pc.toNat + 2 < 256 ∧ (∃ t, exec (.push 7#8) s = .next t ∧ t.sp = 3#8) ∧
      (∃ t, exec (.call 0#8) c = .next t ∧ t.sp = 3#8) ∧
      (∃ l, fetch .fault { s with pc := 1#9 } = .ok l) ∧ (7#8 : Byte).toNat < 8 :=
  ⟨by decide, by decide, by decide, ⟨_, rfl, by decide⟩, ⟨_, rfl, by decide⟩, ⟨_, rfl⟩, by decide⟩

theorem witness_WellFormedInstructionsComplete :
    (Instr.call 7#8).wellFormed = true ∧ (runningAt 253 []).running = true ∧ (runningAt 253 []).execState = .running ∧
      (runningAt 253 []).pc.toNat + 2 < 256 := by decide

/-- The hypotheses of LdiResult, PrnResult, AddMulResult, RetResult and LdiThenPrnOutputsImmediate, at the highest register. -/
theorem witness_register_results : (runningAt 0 []).running = true ∧ (7#8 : Byte).toNat < 8 ∧ (0#8 : Byte).toNat < 8 := by decide

/-- The hypotheses of PushResult, CallResult, PushThenPopRestoresRegisters, at SP 0, where SP wraps, and at the last PC CALL may have. -/
theorem witness_store_results :
    let s := withReg (runningAt 253 []) 7 0
    s.mem.wf = true ∧ s.running = true ∧ s.pc.toNat + 2 < 256 ∧ (7#8 : Byte).toNat < 8 := by decide

/-- Both clauses of PopResult: a register other than R7, and R7. -/
theorem witness_PopResult : (6#8 : Byte) ≠ 7#8 ∧ (runningAt 0 []).running = true ∧
    (∃ t, exec (.pop 7#8) (runningAt 0 []) = .next t ∧ t.sp = 1#8) := ⟨by decide, rfl, ⟨_, rfl, by decide⟩⟩

/-- V-CALL-4 meets the hypotheses of both clauses. -/
theorem witness_CallReturnAddressFaults :
    let s := runningAt 254 [0x50#8, 1#8]
    s.pc.toNat = 254 ∧ s.execState = .running ∧ nextInstr ignoring s = .ok (.call 1#8) ∧ (1#8 : Byte).toNat < 8 ∧
      (after (stepUnder ignoring s)).fault = ⟨.outOfBounds, 254#9, 0x50#8, .memory, 256#9⟩ :=
  ⟨by decide, rfl, rfl, by decide, by decide⟩

/-- The hypotheses of MemoryFrame and RegisterFrame, each clause. -/
theorem witness_frames :
    (∃ t, exec (.push 1#8) (runningAt 0 []) = .next t) ∧ storesByte (.pop 1#8) = false ∧
      (0 : Nat) ≠ (runningAt 0 []).decSp.sp.toNat ∧ (0 : Nat) ∉ writtenRegs (.push 1#8) := ⟨⟨_, rfl⟩, by decide, by decide, by decide⟩

theorem witness_StatusFrame :
    (runningAt 0 []).running = true ∧ (runningAt 0 []).execState = .running ∧
      (∃ t, exec (.prn 7#8) (runningAt 0 []) = .next t ∧ t.execState ≠ .faulted) := ⟨rfl, rfl, ⟨_, rfl, by decide⟩⟩

theorem witness_OutputAndRecordAreNeverRead :
    ∃ t, stepUnder Config.default (runningAt 0 [0x47#8, 7#8]) = .next t ∧ t.out = [244#8] := ⟨_, rfl, by decide⟩

/-- CALL R1, then RET from the state CALL left. -/
theorem witness_CallThenRetReturns :
    let s := withReg (runningAt 253 []) 1 11
    s.mem.wf = true ∧ s.pc.toNat + 2 < 256 ∧ (∃ t, exec (.call 1#8) s = .next t ∧ t.running = true ∧ t.pc = 11#9) :=
  ⟨by decide, by decide, ⟨_, rfl, by decide, by decide⟩⟩

/-- The three clauses of the load port: address 255, address 256 (V-MEM-2), and a load while Running. -/
theorem witness_HostLoadWritesOneByte :
    State.reset.execState = .stopped ∧ State.reset.mem.wf = true ∧ (255#9 : Addr).toNat < 256 ∧ 256 ≤ (256#9 : Addr).toNat ∧
      (runningAt 0 []).execState ≠ .stopped := by decide

theorem witness_HostStartResumes : State.reset.execState = .stopped ∧ (runningAt 0 []).execState ≠ .stopped := by decide

/-- Images of 0, 2 and 257 bytes. -/
theorem witness_BootLoadsImage :
    ([] : List Byte).length ≤ 256 ∧ (after (boot [0x82#8, 0#8] State.reset)).memRead 0 = .ok 0x82#8 ∧
      256 < (List.replicate 257 (1#8 : Byte)).length := ⟨by decide, rfl, by rw [List.length_replicate]; decide⟩

/-- A normal end, an abnormal end, and a step that ends nothing. -/
theorem witness_RunEndsAndStatus :
    (runningAt 253 [0x01#8]).Inv ∧ (∃ t, EndsNormally Config.default (runningAt 253 [0x01#8]) t) ∧
      (∃ t, EndsAbnormally Config.default (runningAt 0 []) t) ∧
      (∃ t, stepUnder Config.default (runningAt 0 [0x47#8]) = .next t ∧ t.execState = .running) :=
  ⟨runningAt_inv, ⟨_, rfl, rfl, rfl⟩, ⟨_, rfl, rfl, rfl⟩, ⟨_, rfl, rfl⟩⟩

/-- V-MEM-2: a load at 256 faults; no opcode was fetched. -/
theorem test_load_beyond_memory_faults :
    let t := after (hostMove (.load 256#9 1#8) State.reset)
    t.execState = .faulted ∧ t.fault = ⟨.outOfBounds, 0#9, 0#8, .memory, 256#9⟩ ∧ t.mem = [] := by decide

/-- V-CYC-2: a start request after HLT resumes at the next address. -/
theorem test_start_resumes_after_hlt :
    let t := hostStart (after (step (runningAt 11 [0x01#8, 0x47#8])))
    t.execState = .running ∧ t.running = true ∧ t.pc = 12#9 := by decide

/-- An instruction of the opcode table placed at the reset PC is what the next step runs. -/
theorem test_fetch_word_runs :
    let t := after (step (State.reset.withFetchWord 24 0x050382))
    t.reg 3 = 5#8 ∧ t.pc = 3#9 ∧ t.execState = .running := by decide

/-- R175: 72 prints as the line 72. -/
theorem test_output_line : outputLine 72#8 = ['7', '2'] := by decide

end Sys2Proof.Tests
end

section
/-! PROOFS. The register file, the stack pointer and the status fields across one instruction (10_state.md): the lemmas say what every
handler leaves unchanged, and the statements of this family follow from them. -/

open Sys2Proof

namespace Sys2Proof.Machine

/-! ### An instruction from its handler's answer -/

theorem exec_of_handler_ok {i : Instr} {s s' : State} (h : handler i s = .ok s') :
    exec i s = .next (s'.advance i.mnemonic).stopCheck := exec_eq_next.2 (.inl ⟨s', h, rfl⟩)

/-- An instruction that did not fault ended from the state its handler answered. -/
theorem handler_ok_of_exec_completes {i : Instr} {s t : State} (h : exec i s = .next t) (ht : t.execState ≠ .faulted) :
    ∃ s', handler i s = .ok s' ∧ t = (s'.advance i.mnemonic).stopCheck := by
  obtain hok | ⟨r, -, rfl⟩ := exec_eq_next.1 h
  · exact hok
  · exact absurd (State.takeFault_execState s r) ht

/-! ### The stack pointer -/

@[simp] theorem State.sp_advance (s : State) (a : Mnemonic) : (s.advance a).sp = s.sp := State.reg_advance s a _
@[simp] theorem State.sp_stopCheck (s : State) : s.stopCheck.sp = s.sp := State.reg_stopCheck s _

theorem State.sp_writeReg_ne (s : State) {i : RegIdx} (h : i ≠ Config.spIndex) (v : Int) : (s.writeReg i v).sp = s.sp :=
  State.reg_writeReg_ne s h.symm v

theorem exec_sp_of_handler_ok {i : Instr} {s s' : State} {v : Byte} (h : handler i s = .ok s') (hv : s'.sp = v) :
    ∃ t, exec i s = .next t ∧ t.sp = v :=
  ⟨_, exec_of_handler_ok h, by rw [State.sp_stopCheck, State.sp_advance, hv]⟩

theorem exec_push_sp {r : Byte} (h : r.toNat < 8) (s : State) : ∃ t, exec (.push r) s = .next t ∧ t.sp = s.sp - 1#8 :=
  exec_sp_of_handler_ok (handler_push h s) s.sp_decSp

theorem exec_call_sp {r : Byte} (h : r.toNat < 8) {s : State} (hp : s.pc.toNat + 2 < Config.memSize) :
    ∃ t, exec (.call r) s = .next t ∧ t.sp = s.sp - 1#8 :=
  exec_sp_of_handler_ok (handler_call h hp) s.sp_decSp

/-- POP into R7 is left out: there SP is the popped byte plus 1. -/
theorem exec_pop_sp {r : Byte} (h : r.toNat < 7) (s : State) : ∃ t, exec (.pop r) s = .next t ∧ t.sp = s.sp + 1#8 := by
  have hr : r.toNat < 8 := by omega
  have hne : (⟨r.toNat, hr⟩ : RegIdx) ≠ Config.spIndex := Fin.ne_of_val_ne (Nat.ne_of_lt h)
  exact exec_sp_of_handler_ok (handler_pop hr s) (by rw [State.sp_incSp, s.sp_writeReg_ne hne])

theorem exec_ret_sp (s : State) : ∃ t, exec .ret s = .next t ∧ t.sp = s.sp + 1#8 :=
  exec_sp_of_handler_ok (handler_ret s) (State.sp_incSp _)

/-! ### The frame of a handler -/

theorem State.reg_writeReg_of_notMem (s : State) {i j : RegIdx} {l : List Nat} (hi : i.val ∈ l) (hj : j.val ∉ l) (v : Int) :
    (s.writeReg i v).reg j = s.reg j :=
  State.reg_writeReg_ne s (fun (e : j = i) => hj (e ▸ hi)) v

/-- The handler writes no register outside R23's list for its instruction. -/
theorem handler_reg_frame {i : Instr} {s s' : State} (h : handler i s = .ok s') {j : RegIdx} (hj : j.val ∉ writtenRegs i) :
    s'.reg j = s.reg j := by
  have hc := handler_ok_cases h
  cases i with
  | hlt => cases hc; rfl
  | ldi reg imm => obtain ⟨hr, rfl⟩ := hc; exact s.reg_writeReg_of_notMem (by simp [writtenRegs]) hj _
  | prn reg => obtain ⟨_, rfl⟩ := hc; rfl
  | add a b => obtain ⟨_, _, rfl⟩ := hc; exact s.reg_writeReg_of_notMem (by simp [writtenRegs]) hj _
  | mul a b => obtain ⟨_, _, rfl⟩ := hc; exact s.reg_writeReg_of_notMem (by simp [writtenRegs]) hj _
  | push reg => obtain ⟨_, rfl⟩ := hc; exact s.reg_writeReg_of_notMem (by simp [writtenRegs, Config.spIndex]) hj _
  | pop reg =>
    obtain ⟨hr, rfl⟩ := hc
    calc (s.writeReg ⟨reg.toNat, hr⟩ (s.mem.get s.sp.toNat).toNat).incSp.reg j
        = (s.writeReg ⟨reg.toNat, hr⟩ (s.mem.get s.sp.toNat).toNat).reg j :=
          State.reg_writeReg_of_notMem _ (by simp [writtenRegs, Config.spIndex]) hj _
      _ = s.reg j := s.reg_writeReg_of_notMem (by simp [writtenRegs]) hj _
  | call reg => obtain ⟨_, _, rfl⟩ := hc; exact s.reg_writeReg_of_notMem (by simp [writtenRegs, Config.spIndex]) hj _
  | ret => cases hc; exact State.reg_writeReg_of_notMem _ (by simp [writtenRegs, Config.spIndex]) hj _

/-- HLT's handler alone writes `running`, and PRN's alone the output. -/
theorem handler_status_frame {i : Instr} {s s' : State} (h : handler i s = .ok s') :
    (i ≠ .hlt → s'.running = s.running) ∧ ((∀ r, i ≠ .prn r) → s'.out = s.out) := by
  have hc := handler_ok_cases h
  cases i with
  | hlt => cases hc; exact ⟨fun hi => absurd rfl hi, fun _ => rfl⟩
  | ldi => obtain ⟨_, rfl⟩ := hc; exact ⟨fun _ => rfl, fun _ => rfl⟩
  | prn r => obtain ⟨_, rfl⟩ := hc; exact ⟨fun _ => rfl, fun hi => absurd rfl (hi r)⟩
  | add => obtain ⟨_, _, rfl⟩ := hc; exact ⟨fun _ => rfl, fun _ => rfl⟩
  | mul => obtain ⟨_, _, rfl⟩ := hc; exact ⟨fun _ => rfl, fun _ => rfl⟩
  | push => obtain ⟨_, rfl⟩ := hc; exact ⟨fun _ => rfl, fun _ => rfl⟩
  | pop => obtain ⟨_, rfl⟩ := hc; exact ⟨fun _ => rfl, fun _ => rfl⟩
  | call => obtain ⟨_, _, rfl⟩ := hc; exact ⟨fun _ => rfl, fun _ => rfl⟩
  | ret => cases hc; exact ⟨fun _ => rfl, fun _ => rfl⟩

theorem handler_prn_out {r : Byte} {s s' : State} (h : handler (.prn r) s = .ok s') : ∃ b, s'.out = s.out ++ [b] := by
  obtain ⟨hr, rfl⟩ := handler_ok_cases h
  exact ⟨s.reg ⟨r.toNat, hr⟩, rfl⟩

/-! ### Reset -/

theorem State.reset_reg (i : RegIdx) : State.reset.reg i = if i = 7 then 0xF4#8 else 0#8 := by
  revert i; decide

end Sys2Proof.Machine

/-! ### The statements -/

open Sys2Proof.Machine

/-- Settles O25: the first clause is `toNat_trunc8` read back through the register file; SP wraps because 0 - 1 = 255 and 255 + 1 = 0
in a byte. -/
theorem registerWritesTruncate : Obligations.RegisterWritesTruncate := by
  refine ⟨fun s i v => ⟨?_, fun j hj => s.reg_writeReg_ne hj v⟩, fun s r hr hsp => ?_, fun s r hr hsp => ?_⟩
  · rw [State.reg_writeReg_self, toNat_trunc8]
  · have wraps : s.sp - 1#8 = 255#8 := by rw [hsp]; rfl
    exact wraps ▸ ⟨exec_push_sp hr s, exec_call_sp hr⟩
  · have wraps : s.sp + 1#8 = 0#8 := by rw [hsp]; rfl
    exact wraps ▸ ⟨exec_pop_sp hr s, exec_ret_sp s⟩

/-- Settles O39, by the register frame of the handlers; an instruction that faults writes no register at all. -/
theorem registerFrame : Obligations.RegisterFrame := by
  intro i s t h j hj
  obtain ⟨s', hok, rfl⟩ | ⟨r, -, rfl⟩ := exec_eq_next.1 h
  · simpa using handler_reg_frame hok hj
  · exact s.reg_takeFault r j

/-- Settles O40: the end of a step writes PC alone while `running` holds, so each field is as the handler left it. -/
theorem statusFrame : Obligations.StatusFrame := by
  intro i s t hrun hexec h ht
  obtain ⟨s', hok, rfl⟩ := handler_ok_of_exec_completes h ht
  obtain ⟨hfault, hstate, -⟩ := handler_keeps hok
  obtain ⟨hkeepsRun, hkeepsOut⟩ := handler_status_frame hok
  refine ⟨by simpa using hfault, fun hi => ?_, fun hi => by simpa using hkeepsOut hi, ?_⟩
  · have hrun' : s'.running = true := (hkeepsRun hi).trans hrun
    simp [hrun', hstate, hexec]
  · rintro r rfl
    simpa using handler_prn_out hok

/-- Settles O21: the reset state is read off, and an access at 256 or more fails the bound check of each primitive. -/
theorem resetValues : Obligations.ResetValues := by
  refine ⟨State.reset_reg, rfl, fun a ha => ?_, fun s a v ha => ⟨s.memRead_of_ge ha, s.memWrite_of_ge ha v⟩⟩
  rw [State.memRead_of_lt _ ha, show State.reset.mem = [] from rfl, Memory.get_nil]

end

section
/-! PROOFS. Memory across a write, an instruction and a fetch (20_memory.md): what a store changes, that PUSH and CALL alone store, and
that a fetch reads what they stored. -/

open Sys2Proof

namespace Sys2Proof.Machine

/-! ### Reads after one cell was set -/

theorem State.memRead_congr {s t : State} {a : Nat} (h : t.mem.get a = s.mem.get a) : t.memRead a = s.memRead a := by
  rw [State.memRead, State.memRead, h]

theorem State.memRead_of_set_self {s t : State} {a : Nat} {v : Byte} (ha : a < Config.memSize) (hm : s.mem.wf = true)
    (ht : t.mem = s.mem.set a v) : t.memRead a = .ok v := by
  rw [t.memRead_of_lt ha, ht, Memory.get_set_self a v hm]

theorem State.memRead_of_set_ne {s t : State} {a b : Nat} {v : Byte} (ht : t.mem = s.mem.set a v) (hb : b ≠ a) :
    t.memRead b = s.memRead b :=
  State.memRead_congr (by rw [ht, Memory.get_set_ne hb])

/-! ### What an instruction stores -/

/-- Everything a handler can do to memory: leave it, or, for an instruction that stores, set the one cell at the decremented SP. -/
theorem handler_mem_cases {i : Instr} {s s' : State} (h : handler i s = .ok s') :
    s'.mem = s.mem ∨ storesByte i = true ∧ ∃ v, s'.mem = s.mem.set s.decSp.sp.toNat v := by
  have hc := handler_ok_cases h
  cases i with
  | hlt => cases hc; exact .inl rfl
  | ldi => obtain ⟨_, rfl⟩ := hc; exact .inl rfl
  | prn => obtain ⟨_, rfl⟩ := hc; exact .inl rfl
  | add => obtain ⟨_, _, rfl⟩ := hc; exact .inl rfl
  | mul => obtain ⟨_, _, rfl⟩ := hc; exact .inl rfl
  | push => obtain ⟨_, rfl⟩ := hc; exact .inr ⟨rfl, _, rfl⟩
  | pop => obtain ⟨_, rfl⟩ := hc; exact .inl rfl
  | call => obtain ⟨_, _, rfl⟩ := hc; exact .inr ⟨rfl, _, rfl⟩
  | ret => cases hc; exact .inl rfl

/-- The same of the whole instruction: the end of a step writes no memory, and neither does taking a fault. -/
theorem exec_mem_cases {i : Instr} {s t : State} (h : exec i s = .next t) :
    t.mem = s.mem ∨ storesByte i = true ∧ ∃ v, t.mem = s.mem.set s.decSp.sp.toNat v := by
  obtain ⟨s', hok, rfl⟩ | ⟨r, -, rfl⟩ := exec_eq_next.1 h
  · simpa using handler_mem_cases hok
  · exact .inl (s.takeFault_mem r)

theorem exec_push_mem_get_sp {r : Byte} (hr : r.toNat < 8) {s t : State} (hm : s.mem.wf = true)
    (h : exec (.push r) s = .next t) : t.mem.get t.sp.toNat = t.reg ⟨r.toNat, hr⟩ := by
  cases (exec_of_handler_ok (handler_push hr s)).symm.trans h
  simp only [State.stopCheck_mem, State.advance_mem, State.sp_stopCheck, State.sp_advance, State.reg_stopCheck,
    State.reg_advance]
  exact Memory.get_set_self _ _ hm

theorem exec_call_mem_get_sp {r : Byte} (hr : r.toNat < 8) {s t : State} (hp : s.pc.toNat + 2 < Config.memSize)
    (hm : s.mem.wf = true) (h : exec (.call r) s = .next t) : t.mem.get t.sp.toNat = BitVec.ofNat 8 (s.pc.toNat + 2) := by
  cases (exec_of_handler_ok (handler_call hr hp)).symm.trans h
  simp only [State.stopCheck_mem, State.advance_mem, State.sp_stopCheck, State.sp_advance]
  exact Memory.get_set_self _ _ hm

/-! ### What a fetch latches -/

theorem fetchOperand_eq_byte {mode : SpecFetchOob} {s : State} {a : Nat} {o : Operand} (h : fetchOperand mode s a = .ok o)
    (ha : a < Config.memSize) : o = .byte (s.mem.get a) :=
  Except.ok.inj (h.symm.trans (fetchOperand_of_lt mode s ha))

/-- A fetch that answers latches the byte of memory at each of its three addresses that lies in memory. -/
theorem fetch_latches_mem {mode : SpecFetchOob} {s : State} {l : Latches} (h : fetch mode s = .ok l) {a : Nat}
    (ha : a < Config.memSize) :
    (s.pc.toNat = a → l.ir = s.mem.get a) ∧ (s.pc.toNat + 1 = a → l.opA = .byte (s.mem.get a)) ∧
      (s.pc.toNat + 2 = a → l.opB = .byte (s.mem.get a)) := by
  obtain ⟨-, hir, hA, hB⟩ := fetch_ok_ir h
  refine ⟨?_, ?_, ?_⟩ <;> rintro rfl
  · exact hir
  · exact fetchOperand_eq_byte hA ha
  · exact fetchOperand_eq_byte hB ha

end Sys2Proof.Machine

/-! ### The statements -/

open Sys2Proof.Machine

/-- Settles O26: below 256 the write sets one cell of the canonical list; from 256 on the bound check of each primitive fails. -/
theorem memoryReadAfterWrite : Obligations.MemoryReadAfterWrite := by
  refine fun s a v hm => ⟨fun ha => ?_, fun ha => ⟨s.memRead_of_ge ha, s.memWrite_of_ge ha v⟩⟩
  exact ⟨{ s with mem := s.mem.set a v }, s.memWrite_of_lt ha v, State.memRead_of_set_self ha hm rfl,
    fun b hb => State.memRead_of_set_ne rfl hb, Memory.wf_set ha v hm, rfl⟩

/-- Settles O27: the cell at the new SP holds the stored byte, SP lies in memory, and the fetch has no other source than memory. -/
theorem fetchSeesStoredByte : Obligations.FetchSeesStoredByte := by
  intro mode s t r v hr hm hstore u l hu hf
  have stored : t.mem.get t.sp.toNat = v := by
    obtain ⟨h, rfl⟩ | ⟨h, hp, rfl⟩ := hstore
    · exact exec_push_mem_get_sp hr hm h
    · exact exec_call_mem_get_sp hr hp hm h
  have latched := fetch_latches_mem hf (byte_lt_memSize t.sp)
  rwa [hu, stored] at latched

/-- Settles O38, by the two things an instruction can do to memory. -/
theorem memoryFrame : Obligations.MemoryFrame := by
  intro i s t h
  obtain hkept | ⟨hi, v, hset⟩ := exec_mem_cases h
  · exact ⟨fun _ => hkept, fun a _ => State.memRead_congr (by rw [hkept])⟩
  · exact ⟨fun hno => absurd (hi.symm.trans hno) (by decide), fun a ha => State.memRead_of_set_ne hset ha⟩

end

section
/-! PROOFS. Encoding (30_encoding.md): the decoder inverts the encoder, an opcode byte's own bits say how many operands it takes and
whether it sets PC, and PC moves by those bits. -/

open Sys2Proof

namespace Sys2Proof

/-! ### The lookup under a valid map -/

theorem OpcodeMap.Valid.lookup_eq_some {m : OpcodeMap} (hm : m.Valid) {b : Byte} {a : Mnemonic} :
    m.lookup b = some a ↔ b = m.byteOf a :=
  ⟨fun h => (OpcodeMap.byteOf_of_lookup h).symm, fun h => h ▸ hm.lookup_byteOf a⟩

theorem Mnemonic.pcSetting_eq_true {a : Mnemonic} : a.pcSetting = true ↔ a = .call ∨ a = .ret := by
  cases a <;> decide

/-! ### The operands -/

/-- The operand bytes of an instruction, latched behind any opcode byte, give the instruction back. -/
theorem decodeOperands_ofBytes (ir : Byte) (i : Instr) (tail : List Byte) :
    decodeOperands (Latches.ofBytes (ir :: i.operands ++ tail)) i.mnemonic = .ok i := by
  cases i <;> rfl

/-- The operands of a mnemonic are read from no latch beyond its operand count. -/
theorem decodeOperands_congr {l l' : Latches} {a : Mnemonic} (hA : 1 ≤ a.operandCount → l.opA = l'.opA)
    (hB : 2 ≤ a.operandCount → l.opB = l'.opB) : decodeOperands l a = decodeOperands l' a := by
  cases a with
  | hlt | ret => rfl
  | prn | push | pop | call => simp only [decodeOperands, hA (by decide)]
  | ldi | add | mul => simp only [decodeOperands, hA (by decide), hB (by decide)]

/-- R73 read backwards: the bytes an instruction assembles to decode to it, whatever bytes follow. -/
theorem OpcodeMap.Valid.decode_encode {m : OpcodeMap} (hm : m.Valid) (i : Instr) (tail : List Byte) :
    decode m (Latches.ofBytes (encode m i ++ tail)) = .ok i := by
  have hl : m.lookup (Latches.ofBytes (encode m i ++ tail)).ir = some i.mnemonic := hm.lookup_byteOf i.mnemonic
  rw [decode_eq, hl]
  exact decodeOperands_ofBytes _ i tail

theorem OpcodeMap.default_valid : OpcodeMap.default.Valid := by decide

/-- A word of the opcode table decodes to the instruction whose assembled bytes it begins with. -/
theorem decodeTableWord_of_encode {nbits w : Nat} {i : Instr} (tail : List Byte)
    (h : tableWordBytes nbits w = encode OpcodeMap.default i ++ tail) : decodeTableWord nbits w = some i := by
  rw [decodeTableWord, h, OpcodeMap.default_valid.decode_encode]

end Sys2Proof

namespace Sys2Proof.Machine

/-! ### PC across one instruction -/

theorem toNat_setWidth_byte (b : Byte) : (b.setWidth 9).toNat = b.toNat := BitVec.toNat_setWidth_of_le (by decide)

/-- A handler leaves PC to the advance, but for CALL's and RET's, which set it to a byte. -/
theorem handler_pc {i : Instr} {s s' : State} (h : handler i s = .ok s') :
    (i.mnemonic.pcSetting = false → s'.pc = s.pc) ∧ (i.mnemonic.pcSetting = true → s'.pc.toNat < 256) := by
  have hc := handler_ok_cases h
  have jumped : ∀ b : Byte, (b.setWidth 9).toNat < 256 := fun b => toNat_setWidth_byte b ▸ b.isLt
  cases i with
  | hlt => cases hc; exact ⟨fun _ => rfl, nofun⟩
  | ldi => obtain ⟨_, rfl⟩ := hc; exact ⟨fun _ => rfl, nofun⟩
  | prn => obtain ⟨_, rfl⟩ := hc; exact ⟨fun _ => rfl, nofun⟩
  | add => obtain ⟨_, _, rfl⟩ := hc; exact ⟨fun _ => rfl, nofun⟩
  | mul => obtain ⟨_, _, rfl⟩ := hc; exact ⟨fun _ => rfl, nofun⟩
  | push => obtain ⟨_, rfl⟩ := hc; exact ⟨fun _ => rfl, nofun⟩
  | pop => obtain ⟨_, rfl⟩ := hc; exact ⟨fun _ => rfl, nofun⟩
  | call => obtain ⟨_, _, rfl⟩ := hc; exact ⟨nofun, fun _ => jumped _⟩
  | ret => cases hc; exact ⟨nofun, fun _ => jumped _⟩

/-- An instruction inside memory ends at most at address 256, which 9 bits hold. -/
theorem toNat_pc_advance {pc : Addr} {n : Nat} (h : pc.toNat + n < Config.memSize) :
    (pc + BitVec.ofNat 9 (n + 1)).toNat = pc.toNat + n + 1 := by
  have hn : pc.toNat + n < 256 := h
  rw [BitVec.toNat_add, BitVec.toNat_ofNat]
  omega

/-- PC after an instruction that completes: the address behind its bytes, or for CALL and RET a byte. -/
theorem exec_pc {i : Instr} {s t : State} (h : exec i s = .next t) (ht : t.execState ≠ .faulted)
    (hp : s.pc.toNat + i.mnemonic.operandCount < Config.memSize) :
    (i.mnemonic.pcSetting = false → t.pc.toNat = s.pc.toNat + i.mnemonic.operandCount + 1) ∧
      (i.mnemonic.pcSetting = true → t.pc.toNat < 256) := by
  obtain ⟨s', hok, rfl⟩ := handler_ok_of_exec_completes h ht
  obtain ⟨hkeeps, hsets⟩ := handler_pc hok
  refine ⟨fun hset => ?_, fun hset => ?_⟩
  · simpa [hset, hkeeps hset] using toNat_pc_advance hp
  · simpa [hset] using hsets hset

/-- A step in Running that does not fault executed the instruction it read. -/
theorem exec_of_step_completes {c : Config} {s t : State} (hs : s.execState = .running) (h : stepUnder c s = .next t)
    (ht : t.execState ≠ .faulted) : ∃ i, nextInstr c s = .ok i ∧ exec i s = .next t := by
  obtain ⟨hne, -⟩ | ⟨-, r, -, rfl⟩ | ⟨-, hi⟩ := stepUnder_cases h
  · exact absurd hs hne
  · exact absurd (s.takeFault_execState r) ht
  · exact hi

end Sys2Proof.Machine

/-! ### The statements -/

open Sys2Proof.Machine

/-- Settles O1: the lookup finds the mnemonic because the nine bytes differ, and the operand bytes stand where the format reads them. -/
theorem decodeInvertsEncode : Obligations.DecodeInvertsEncode :=
  fun _ hm i tail => hm.decode_encode i tail

/-- Settles O4: R67 makes the byte's bits the mnemonic's operand count and PC-setting flag. -/
theorem opcodeBitsGiveLengthAndPcset : Obligations.OpcodeBitsGiveLengthAndPcset := by
  refine fun m hm => ⟨fun i => ?_, fun b a hl => ?_⟩
  · rw [encode_length, hm.opcField_byteOf, Instr.length]
  · obtain rfl := hm.lookup_eq_some.1 hl
    exact ⟨rfl, hm.opcField_byteOf a, by rw [hm.pcsetField_byteOf, Mnemonic.pcSetting_eq_true]⟩

/-- Settles O6: both lookups give the same answer, and a mnemonic found takes as many operands as the byte's bits 7:6 say. -/
theorem unusedOperandBytesNeverMatter : Obligations.UnusedOperandBytesNeverMatter := by
  intro m hm l l' hir hA hB
  rw [decode_eq, decode_eq, ← hir]
  cases hl : m.lookup l.ir with
  | none => rfl
  | some a =>
    rw [hm.lookup_eq_some.1 hl, hm.opcField_byteOf] at hA hB
    exact decodeOperands_congr hA hB

/-- Settles O14: the step executed the instruction whose opcode byte is the one at PC, and its bytes lie in memory. -/
theorem pcAdvancesByOpcodeBits : Obligations.PcAdvancesByOpcodeBits := by
  intro c hc s t ir hs hir h ht
  obtain ⟨i, hn, he⟩ := exec_of_step_completes hs h ht
  obtain ⟨hp, hbyte⟩ := nextInstr_ok_bytes hn
  have hpc : s.pc.toNat < Config.memSize := by omega
  obtain rfl : s.mem.get s.pc.toNat = ir := Except.ok.inj ((s.memRead_of_lt hpc).symm.trans hir)
  rw [← hbyte, hc.pcsetField_byteOf, hc.opcField_byteOf, hc.lookup_byteOf]
  obtain ⟨hadvances, hsets⟩ := exec_pc he ht hp
  refine ⟨hadvances, fun hset => ⟨?_, hsets hset⟩⟩
  simpa using Mnemonic.pcSetting_eq_true.1 hset

/-- Settles O3: each word begins with the bytes its instruction assembles to, and no mnemonic has the byte 0b11000000. -/
theorem sampleWordsDecode : Obligations.SampleWordsDecode :=
  ⟨decodeTableWord_of_encode [0, 0] rfl, decodeTableWord_of_encode [] rfl, decodeTableWord_of_encode [0] rfl,
    decodeTableWord_of_encode [] rfl, decodeTableWord_of_encode [] rfl, decodeTableWord_of_encode [0] rfl,
    decodeTableWord_of_encode [0] rfl, decodeTableWord_of_encode [0] rfl, decodeTableWord_of_encode [0, 0] rfl, rfl⟩

/-- Settles O30: the handler writes the one register, and the end of the step advances PC and does not stop. -/
theorem ldiResult : Obligations.LdiResult := by
  intro s reg imm h hrun
  rw [exec_of_handler_ok (handler_ldi h imm s), State.stopCheck_of_running (by simpa using hrun)]
  simp [State.advance, State.writeReg, Instr.mnemonic, Mnemonic.pcSetting, Mnemonic.operandCount]

end

section
/-! PROOFS. The cycle of a step (40_execute_cycle.md R83 to R87): what the fetch latches or which of its reads faults first, what the
latched bytes decode to, and which fault or instruction the step then takes. -/

open Sys2Proof

namespace Sys2Proof

/-! ### The decoder's answers -/

theorem decode_of_lookup_none {m : OpcodeMap} {l : Latches} (h : m.lookup l.ir = none) :
    decode m l = .error (.unknownOpcode l.ir) := by
  rw [decode_eq, h]

theorem decode_of_lookup_some {m : OpcodeMap} {l : Latches} {a : Mnemonic} (h : m.lookup l.ir = some a) :
    decode m l = decodeOperands l a := by
  rw [decode_eq, h]

theorem Mnemonic.operandCount_le_two (a : Mnemonic) : a.operandCount ≤ 2 := by cases a <;> decide

/-- Where every operand that is used is a byte, the operands make an instruction. -/
theorem decodeOperands_of_bytes {l : Latches} {a : Mnemonic} {p q : Byte} (hA : 1 ≤ a.operandCount → l.opA = .byte p)
    (hB : 2 ≤ a.operandCount → l.opB = .byte q) : ∃ i, decodeOperands l a = .ok i := by
  have hl : decodeOperands l a = decodeOperands ⟨l.ir, .byte p, .byte q⟩ a := decodeOperands_congr hA hB
  cases a <;> exact ⟨_, hl⟩

theorem decodeOperands_of_absent_opA {l : Latches} {a : Mnemonic} {x : Addr} (hA : l.opA = .absent x)
    (ha : 1 ≤ a.operandCount) : decodeOperands l a = .error (.absentOperand x) := by
  cases a with
  | hlt | ret => exact absurd ha (by decide)
  | ldi | prn | add | mul | push | pop | call => simp only [decodeOperands, hA]; rfl

theorem decodeOperands_of_absent_opB {l : Latches} {a : Mnemonic} {v : Byte} {x : Addr} (hA : l.opA = .byte v)
    (hB : l.opB = .absent x) (ha : 2 ≤ a.operandCount) : decodeOperands l a = .error (.absentOperand x) := by
  cases a with
  | hlt | ret | prn | push | pop | call => exact absurd ha (by decide)
  | ldi | add | mul => simp only [decodeOperands, hA, hB]; rfl

/-- No operand fault is an unknown opcode. -/
theorem decodeOperands_ne_unknownOpcode (l : Latches) (a : Mnemonic) (b : Byte) :
    decodeOperands l a ≠ .error (.unknownOpcode b) := by
  obtain ⟨ir, p, q⟩ := l
  cases a <;> cases p <;> cases q <;> exact nofun

theorem decode_eq_unknownOpcode {m : OpcodeMap} {l : Latches} :
    decode m l = .error (.unknownOpcode l.ir) ↔ m.lookup l.ir = none := by
  refine ⟨fun h => ?_, decode_of_lookup_none⟩
  cases hl : m.lookup l.ir with
  | none => rfl
  | some a => exact absurd ((decode_of_lookup_some hl).symm.trans h) (decodeOperands_ne_unknownOpcode l a l.ir)

end Sys2Proof

namespace Sys2Proof.Machine

/-! ### The fetch -/

@[simp] theorem recordAddr_toNat (a : Addr) : recordAddr a.toNat = a := by simp [recordAddr]

/-- A fetch whose opcode byte is read answers as its two operand reads do, in their order. -/
theorem fetch_of_pc_lt (mode : SpecFetchOob) (s : State) (h : s.pc.toNat < Config.memSize) :
    fetch mode s = (fetchOperand mode s (s.pc.toNat + 1)).bind fun a =>
      (fetchOperand mode s (s.pc.toNat + 2)).bind fun b => .ok ⟨s.mem.get s.pc.toNat, a, b⟩ := by
  rw [fetch, s.memRead_of_lt h]; rfl

theorem lt_and_eq_of_memRead_ok {s : State} {a : Nat} {v : Byte} (h : s.memRead a = .ok v) :
    a < Config.memSize ∧ v = s.mem.get a := by
  by_cases ha : a < Config.memSize
  · exact ⟨ha, Except.ok.inj (h.symm.trans (s.memRead_of_lt ha))⟩
  · exact absurd ((s.memRead_of_ge (Nat.not_lt.1 ha)).symm.trans h) nofun

/-- Under `fault` a PC whose operands do not both lie in memory ends the fetch at address 256 (R84). -/
theorem fetch_fault_of_last_two {s : State} (h : s.pc.toNat = 254 ∨ s.pc.toNat = 255) :
    fetch .fault s = .error (.outOfBounds .memory 256#9) := by
  have hp : s.pc.toNat < Config.memSize := by simp only [Config.memSize]; omega
  rw [fetch_of_pc_lt _ s hp]
  obtain h | h := h <;> rw [h]
  · rw [fetchOperand_of_lt _ s (by decide), fetchOperand_fault_of_ge s (by decide)]; rfl
  · rw [fetchOperand_fault_of_ge s (by decide)]; rfl

/-- An operand read answers wherever its address lies in memory, and under `ignore` everywhere. -/
theorem fetchOperand_answers {mode : SpecFetchOob} {a : Nat} (h : a < Config.memSize ∨ mode = .ignore) (s : State) :
    ∃ o, fetchOperand mode s a = .ok o := by
  by_cases ha : a < Config.memSize
  · exact ⟨_, fetchOperand_of_lt mode s ha⟩
  · obtain rfl := h.resolve_left ha
    exact ⟨_, fetchOperand_ignore_of_ge s (Nat.not_lt.1 ha)⟩

theorem fetch_answers {mode : SpecFetchOob} {s : State} {ir : Byte} (h : s.pc.toNat + 2 < Config.memSize ∨ mode = .ignore)
    (hir : s.memRead s.pc.toNat = .ok ir) : ∃ l, fetch mode s = .ok l ∧ l.ir = ir := by
  obtain ⟨hp, rfl⟩ := lt_and_eq_of_memRead_ok hir
  obtain ⟨a, ha⟩ := fetchOperand_answers (h.imp_left fun h => (by omega : s.pc.toNat + 1 < Config.memSize)) s
  obtain ⟨b, hb⟩ := fetchOperand_answers h s
  exact ⟨⟨s.mem.get s.pc.toNat, a, b⟩, by rw [fetch_of_pc_lt mode s hp, ha, hb]; rfl, rfl⟩

/-- An operand latched at address 256 is the absent one. -/
theorem fetchOperand_at_256 {mode : SpecFetchOob} {s : State} {o : Operand} (h : fetchOperand mode s 256 = .ok o) :
    o = .absent 256#9 := by
  cases mode with
  | fault => exact absurd ((fetchOperand_fault_of_ge s (Nat.le_refl 256)).symm.trans h) nofun
  | ignore => exact (Except.ok.inj ((fetchOperand_ignore_of_ge s (Nat.le_refl 256)).symm.trans h)).symm

/-! ### The operands of the latched bytes -/

/-- Where the bytes of the mnemonic lie in memory, the latched operands make an instruction. -/
theorem decodeOperands_of_fetch {mode : SpecFetchOob} {s : State} {l : Latches} {a : Mnemonic} (hf : fetch mode s = .ok l)
    (ha : s.pc.toNat + a.operandCount < Config.memSize) : ∃ i, decodeOperands l a = .ok i := by
  obtain ⟨-, -, hA, hB⟩ := fetch_ok_ir hf
  exact decodeOperands_of_bytes (fun _ => fetchOperand_eq_byte hA (by omega)) (fun _ => fetchOperand_eq_byte hB (by omega))

/-- Where they do not, the first operand beyond memory is the one at address 256. -/
theorem decodeOperands_of_fetch_absent {mode : SpecFetchOob} {s : State} {l : Latches} {a : Mnemonic}
    (hf : fetch mode s = .ok l) (ha : Config.memSize ≤ s.pc.toNat + a.operandCount) :
    decodeOperands l a = .error (.absentOperand 256#9) := by
  obtain ⟨hp, -, hA, hB⟩ := fetch_ok_ir hf
  have hcount := a.operandCount_le_two
  simp only [Config.memSize] at hp ha
  obtain hpc | hpc : s.pc.toNat = 255 ∨ s.pc.toNat = 254 := by omega
  · rw [hpc] at hA
    exact decodeOperands_of_absent_opA (fetchOperand_at_256 hA) (by omega)
  · rw [hpc] at hA hB
    exact decodeOperands_of_absent_opB (fetchOperand_eq_byte hA (by decide)) (fetchOperand_at_256 hB) (by omega)

/-! ### The instruction read -/

theorem nextInstr_of_fetch_error {c : Config} {s : State} {r : Raise} (h : fetch c.specFetchOob s = .error r) :
    nextInstr c s = .error r := by
  rw [nextInstr, h]; rfl

theorem nextInstr_of_decode_error {c : Config} {s : State} {l : Latches} {e : DecodeError}
    (hf : fetch c.specFetchOob s = .ok l) (hd : decode c.opcodeMap l = .error e) : nextInstr c s = .error (raiseOf e) := by
  simp only [nextInstr, decodeLatched, hf, hd, bind, Except.bind]

theorem nextInstr_of_decode_ok {c : Config} {s : State} {l : Latches} {i : Instr} (hf : fetch c.specFetchOob s = .ok l)
    (hd : decode c.opcodeMap l = .ok i) : nextInstr c s = .ok i := nextInstr_eq_ok.2 ⟨l, hf, hd⟩

/-! ### The step -/

theorem stepUnder_of_not_running {c : Config} {s : State} (h : s.execState ≠ .running) : stepUnder c s = .next s := by
  unfold stepUnder
  cases hs : s.execState with
  | stopped | faulted => rfl
  | running => exact absurd hs h

theorem stepUnder_of_nextInstr_error {c : Config} {s : State} {r : Raise} (hs : s.execState = .running)
    (h : nextInstr c s = .error r) : stepUnder c s = .next (s.takeFault r) := by
  rw [stepUnder_of_running hs, h]

theorem stepUnder_of_nextInstr_ok {c : Config} {s : State} {i : Instr} (hs : s.execState = .running)
    (h : nextInstr c s = .ok i) : stepUnder c s = exec i s := by
  rw [stepUnder_of_running hs, h]

theorem stepUnder_of_lookup_none {c : Config} {s : State} {l : Latches} (hs : s.execState = .running)
    (hf : fetch c.specFetchOob s = .ok l) (h : c.opcodeMap.lookup l.ir = none) :
    stepUnder c s = .next (s.takeFault .unknownOpcode) :=
  stepUnder_of_nextInstr_error hs (nextInstr_of_decode_error hf (decode_of_lookup_none h))

/-- The record of a fault after a fetch that answered holds the opcode byte the fetch latched. -/
theorem State.latchedOpcode_of_fetch {mode : SpecFetchOob} {s : State} {l : Latches} (h : fetch mode s = .ok l) :
    s.latchedOpcode = l.ir := by
  obtain ⟨hp, hir, -, -⟩ := fetch_ok_ir h
  rw [s.latchedOpcode_of_lt hp, hir]

/-- Where memory from PC holds the encoding of an instruction, that instruction is read. -/
theorem nextInstr_of_mem_encode {c : Config} (hc : Valid c) {s : State} {i : Instr} (hp : s.pc.toNat + 2 < Config.memSize)
    (h : ∀ k, k < i.length → s.memRead (s.pc.toNat + k) = .ok ((encode c.opcodeMap i).getD k 0#8)) :
    nextInstr c s = .ok i := by
  have hbyte : ∀ k, k < i.length → s.mem.get (s.pc.toNat + k) = (encode c.opcodeMap i).getD k 0#8 :=
    fun k hk => (lt_and_eq_of_memRead_ok (h k hk)).2.symm
  have hir : s.mem.get s.pc.toNat = c.opcodeMap.byteOf i.mnemonic := hbyte 0 (Nat.succ_pos _)
  refine nextInstr_of_decode_ok (fetch_of_lt c.specFetchOob s hp) ?_
  rw [decode_of_lookup_some (hir ▸ hc.lookup_byteOf i.mnemonic),
    ← decodeOperands_ofBytes (c.opcodeMap.byteOf i.mnemonic) i []]
  refine decodeOperands_congr (fun h1 => congrArg Operand.byte ?_) (fun h2 => congrArg Operand.byte ?_)
  · simpa [encode] using hbyte 1 (Nat.lt_succ_of_le h1)
  · simpa [encode] using hbyte 2 (Nat.lt_succ_of_le h2)

end Sys2Proof.Machine

/-! ### The statements -/

open Sys2Proof.Machine

/-- Settles O2: the decoder found the mnemonic whose byte was latched, and that byte's bits 7:6 are its operand count. -/
theorem handlerGetsDeclaredOperands : Obligations.HandlerGetsDeclaredOperands := by
  intro c hc s l i hs hf hd
  obtain ⟨hl, ho⟩ := decode_eq_ok hd
  have hir : l.ir = c.opcodeMap.byteOf i.mnemonic := (OpcodeMap.byteOf_of_lookup hl).symm
  refine ⟨stepUnder_of_nextInstr_ok hs (nextInstr_of_decode_ok hf hd), hir, ?_⟩
  rw [hir, hc.opcField_byteOf]
  exact (decodeOperands_eq_ok ho).2

/-- Settles O5: the lookup alone raises UnknownOpcode, and it fails exactly outside the map. -/
theorem exactlyUnmappedOpcodesAreUnknown : Obligations.ExactlyUnmappedOpcodesAreUnknown :=
  fun _ _ => OpcodeMap.lookup_eq_none.symm.trans decode_eq_unknownOpcode.symm

/-- Settles O9: below 256 the opcode byte is read, and the two operand reads follow in their order. -/
theorem fetchReadsThreeBytesInOrder : Obligations.FetchReadsThreeBytesInOrder := by
  refine fun mode s => ⟨fun hp => ?_, fun r hp hA => ?_, fun a r hp hA hB => ?_, fun a b hp hA hB => ?_, fun m r hs hf => ?_⟩
  · rw [fetch_of_pc_ge mode s hp, recordAddr_toNat]
  · rw [fetch_of_pc_lt mode s hp, hA]; rfl
  · rw [fetch_of_pc_lt mode s hp, hA, hB]; rfl
  · exact ⟨s.mem.get s.pc.toNat, s.memRead_of_lt hp, by rw [fetch_of_pc_lt mode s hp, hA, hB]; rfl⟩
  · exact stepUnder_of_nextInstr_error hs (nextInstr_of_fetch_error hf)

/-- Settles O10: the fetch faults first, then the lookup, then the first operand beyond memory, which is the one at 256; otherwise the
latched bytes are an instruction. -/
theorem stepFaultPriority : Obligations.StepFaultPriority := by
  refine fun c s hs => ⟨fun hp => ?_, fun hp hmode => ?_, fun ir hp hir => ?_⟩
  · rw [stepUnder_of_nextInstr_error hs (nextInstr_of_fetch_error (fetch_of_pc_ge _ s hp)), recordAddr_toNat]
  · exact stepUnder_of_nextInstr_error hs (nextInstr_of_fetch_error (hmode ▸ fetch_fault_of_last_two hp))
  · obtain ⟨l, hf, rfl⟩ := fetch_answers hp hir
    refine ⟨stepUnder_of_lookup_none hs hf, fun a ha => ⟨fun habsent => ?_, fun hinside => ?_⟩⟩
    · have hd := (decode_of_lookup_some ha).trans (decodeOperands_of_fetch_absent hf habsent)
      exact stepUnder_of_nextInstr_error hs (nextInstr_of_decode_error hf hd)
    · obtain ⟨i, hi⟩ := decodeOperands_of_fetch hf hinside
      have hn := nextInstr_of_decode_ok hf ((decode_of_lookup_some ha).trans hi)
      exact ⟨i, (decodeOperands_eq_ok hi).1, hn, stepUnder_of_nextInstr_ok hs hn⟩

/-- Settles O11: the lookup fails, and taking its fault writes the record, `running` and the execution state alone. -/
theorem unknownOpcodeIsTaken : Obligations.UnknownOpcodeIsTaken := by
  intro c s l hs hf hl
  exact ⟨s.takeFault .unknownOpcode, stepUnder_of_lookup_none hs hf (OpcodeMap.lookup_eq_none.2 hl), rfl, rfl, rfl,
    State.latchedOpcode_of_fetch hf, rfl, rfl, rfl, rfl, rfl⟩

/-- Settles O8: the bytes at PC are the encoding's, up to those the instruction does not use. -/
theorem stepRunsDecodedInstruction : Obligations.StepRunsDecodedInstruction := by
  refine ⟨fun c s i => stepUnder_of_nextInstr_ok, fun c hc s i hs hp hmem => ?_, fun s => rfl⟩
  have hn := nextInstr_of_mem_encode hc hp hmem
  exact ⟨hn, stepUnder_of_nextInstr_ok hs hn⟩

/-- Settles O13: neither Stopped nor Faulted reaches the fetch. -/
theorem notRunningChangesNothing : Obligations.NotRunningChangesNothing :=
  fun _ _ => stepUnder_of_not_running

end

section
/-! PROOFS. How a step ends (40_execute_cycle.md R88 to R94): a well-formed instruction completes, HLT alone stops the run, and every
step and every host request keeps the invariant. -/

open Sys2Proof

namespace Sys2Proof.Machine

/-! ### Completion -/

theorem regOperand_lt_of_wellFormed {i : Instr} (h : i.wellFormed = true) : ∀ b ∈ i.regOperands, b.toNat < 8 :=
  (Laws.Encoded.statement_of i).2.2.1 h

/-- A handler given registers that exist, and with PC + 2 in memory, raises nothing. -/
theorem handler_ok_of_wellFormed {i : Instr} {s : State} (hi : i.wellFormed = true) (hp : s.pc.toNat + 2 < Config.memSize) :
    ∃ s', handler i s = .ok s' := by
  cases h : handler i s with
  | ok s' => exact ⟨s', rfl⟩
  | error r =>
    obtain ⟨b, hb, hge, -⟩ | ⟨_, -, hge, -⟩ := handler_error h
    · exact absurd (regOperand_lt_of_wellFormed hi b hb) (Nat.not_lt.2 hge)
    · exact absurd hp (Nat.not_lt.2 hge)

/-- The end of a step never enters Faulted: an instruction whose handler answers completes. -/
theorem completes_of_handler_ok {i : Instr} {s s' : State} (h : handler i s = .ok s') (hs : s.execState = .running) :
    (s'.advance i.mnemonic).stopCheck.execState ≠ .faulted := by
  obtain ⟨-, hstate, -⟩ := handler_keeps h
  rw [State.stopCheck_execState, State.advance_execState, hstate, hs]
  split <;> exact nofun

/-! ### HLT -/

theorem exec_hlt (s : State) :
    exec .hlt s = .next { s with running := false, execState := .stopped, pc := s.pc + 1#9 } := rfl

/-- After an instruction that completes, `running` is false exactly if it was HLT. -/
theorem exec_running_false_iff {i : Instr} {s t : State} (hrun : s.running = true) (h : exec i s = .next t)
    (ht : t.execState ≠ .faulted) : t.running = false ↔ i = .hlt := by
  obtain ⟨s', hok, rfl⟩ := handler_ok_of_exec_completes h ht
  rw [State.stopCheck_running, State.advance_running]
  by_cases hi : i = .hlt
  · subst hi
    cases hok
    exact iff_of_true rfl rfl
  · have hkept := (handler_status_frame hok).1 hi
    exact iff_of_false (by simp [hkept, hrun]) hi

theorem step_running_false_iff {c : Config} {s t : State} (hrun : s.running = true) (hs : s.execState = .running)
    (h : stepUnder c s = .next t) (ht : t.execState ≠ .faulted) : t.running = false ↔ nextInstr c s = .ok .hlt := by
  obtain ⟨i, hn, he⟩ := exec_of_step_completes hs h ht
  rw [exec_running_false_iff hrun he ht, hn, Except.ok.injEq]

/-! ### The invariant -/

/-- Outside Faulted the invariant makes `running = false` the same as Stopped. -/
theorem State.Inv.running_false_iff {s : State} (hs : s.Inv) (h : s.execState ≠ .faulted) :
    s.running = false ↔ s.execState = .stopped := by
  rw [← Bool.not_eq_true, hs.runningIff]
  cases he : s.execState with
  | stopped => decide
  | running => decide
  | faulted => exact absurd he h

theorem State.reset_inv : State.reset.Inv := ⟨rfl, by decide, by decide, by decide, by decide, by decide⟩

/-- Entering Faulted from any raise but the ALU's keeps the invariant. -/
theorem State.Inv.enterFaulted {s : State} (hs : s.Inv) (opcode : Byte) {r : Raise} (hr : r ≠ .unsupportedAlu) :
    (s.enterFaulted opcode r).Inv where
  memCanonical := hs.memCanonical
  runningIff := by simp
  pcBound := hs.pcBound
  faultIff := by cases r <;> simp [State.recordFault]
  faultPc _ := by cases r <;> rfl
  noAluFault := by
    cases r with
    | unknownOpcode | outOfBounds => exact nofun
    | unsupportedAlu => exact absurd rfl hr

theorem handler_error_ne_alu {i : Instr} {s : State} {r : Raise} (h : handler i s = .error r) : r ≠ .unsupportedAlu := by
  obtain ⟨_, _, _, rfl⟩ | ⟨_, _, _, rfl⟩ := handler_error h <;> exact nofun

/-- An instruction that completes leaves `running` true exactly in Running. -/
theorem exec_running_iff {i : Instr} {s t : State} (hs : s.execState = .running) (h : exec i s = .next t)
    (ht : t.execState ≠ .faulted) : t.running = true ↔ t.execState = .running := by
  obtain ⟨s', hok, rfl⟩ := handler_ok_of_exec_completes h ht
  obtain ⟨-, hstate, -⟩ := handler_keeps hok
  cases hrun : s'.running <;> simp [hrun, hstate, hs]

theorem exec_pc_le {i : Instr} {s t : State} (h : exec i s = .next t) (ht : t.execState ≠ .faulted)
    (hp : s.pc.toNat + i.mnemonic.operandCount < Config.memSize) : t.pc.toNat ≤ 256 := by
  obtain ⟨hadvances, hsets⟩ := exec_pc h ht hp
  simp only [Config.memSize] at hp
  cases hset : i.mnemonic.pcSetting with
  | false => have := hadvances hset; omega
  | true => have := hsets hset; omega

theorem exec_keeps_fault_and_canonical {i : Instr} {s t : State} (h : exec i s = .next t) (ht : t.execState ≠ .faulted) :
    t.fault = s.fault ∧ (s.mem.wf = true → t.mem.wf = true) := by
  obtain ⟨s', hok, rfl⟩ := handler_ok_of_exec_completes h ht
  obtain ⟨hfault, -, hmem⟩ := handler_keeps hok
  simpa using ⟨hfault, hmem⟩

theorem State.Inv.of_exec_completes {i : Instr} {s t : State} (hs : s.Inv) (hrun : s.execState = .running)
    (hp : s.pc.toNat + i.mnemonic.operandCount < Config.memSize) (h : exec i s = .next t) (ht : t.execState ≠ .faulted) :
    t.Inv := by
  obtain ⟨hfault, hmem⟩ := exec_keeps_fault_and_canonical h ht
  have hnone : ¬ s.fault.code ≠ .none := fun hc => absurd (hrun.symm.trans (hs.faultIff.2 hc)) nofun
  exact {
    memCanonical := hmem hs.memCanonical
    runningIff := exec_running_iff hrun h ht
    pcBound := exec_pc_le h ht hp
    faultIff := iff_of_false ht (hfault ▸ hnone)
    faultPc := fun hfaulted => absurd hfaulted ht
    noAluFault := hfault ▸ hs.noAluFault }

/-- An instruction whose bytes lie in memory keeps the invariant, whether it completes or faults. -/
theorem State.Inv.of_exec {i : Instr} {s t : State} (hs : s.Inv) (hrun : s.execState = .running)
    (hp : s.pc.toNat + i.mnemonic.operandCount < Config.memSize) (h : exec i s = .next t) : t.Inv := by
  obtain ⟨s', hok, rfl⟩ | ⟨r, herr, rfl⟩ := exec_eq_next.1 h
  · exact hs.of_exec_completes hrun hp h (completes_of_handler_ok hok hrun)
  · exact hs.enterFaulted _ (handler_error_ne_alu herr)

/-- Every step keeps the invariant, in every configuration. -/
theorem State.Inv.of_stepUnder {c : Config} {s t : State} (hs : s.Inv) (h : stepUnder c s = .next t) : t.Inv := by
  obtain ⟨-, rfl⟩ | ⟨-, r, hn, rfl⟩ | ⟨hrun, i, hn, he⟩ := stepUnder_cases h
  · exact hs
  · exact hs.enterFaulted _ (nextInstr_error_ne_alu hn)
  · exact hs.of_exec hrun (nextInstr_ok_bytes hn).1 he

/-! ### The host -/

theorem State.Inv.enterRunning {s : State} (hs : s.Inv) (h : s.execState = .stopped) : s.enterRunning.Inv where
  memCanonical := hs.memCanonical
  runningIff := by simp
  pcBound := hs.pcBound
  faultIff := iff_of_false nofun fun hc => absurd (h.symm.trans (hs.faultIff.2 hc)) nofun
  faultPc := nofun
  noAluFault := hs.noAluFault

theorem State.Inv.setMem {s : State} (hs : s.Inv) {m : Memory} (hm : m.wf = true) : State.Inv { s with mem := m } :=
  { hs with memCanonical := hm }

theorem State.Inv.hostStart {s : State} (hs : s.Inv) : (hostStart s).Inv := by
  unfold Machine.hostStart
  cases h : s.execState with
  | stopped => exact hs.enterRunning h
  | running | faulted => exact hs

/-- Everything a load can do when it is not refused: write one byte of memory, or fault beyond memory. -/
theorem hostLoad_cases {a : Addr} {v : Byte} {s t : State} (h : hostLoad a v s = .next t) :
    (a.toNat < Config.memSize ∧ t = { s with mem := s.mem.set a.toNat v }) ∨ t = s.enterFaulted 0#8 (.outOfBounds .memory a) := by
  unfold hostLoad at h
  cases hs : s.execState with
  | running | faulted => simp [hs] at h
  | stopped =>
    by_cases ha : a.toNat < Config.memSize
    · exact .inl ⟨ha, by simpa [hs, s.memWrite_of_lt ha, eq_comm] using h⟩
    · exact .inr (by simpa [hs, s.memWrite_of_ge (Nat.not_lt.1 ha), eq_comm] using h)

/-- Every host request keeps the invariant. -/
theorem State.Inv.of_hostMove {r : HostRequest} {s t : State} (hs : s.Inv) (h : hostMove r s = .next t) : t.Inv := by
  cases r with
  | load a v =>
    obtain ⟨ha, rfl⟩ | rfl := hostLoad_cases h
    · exact hs.setMem (Memory.wf_set ha v hs.memCanonical)
    · exact hs.enterFaulted _ nofun
  | start =>
    cases h
    exact hs.hostStart
  | reset =>
    cases h
    exact State.reset_inv

/-! ### What the host sees -/

theorem host_sees_stopped {s : State} (h : s.execState = .stopped) : exitStatus s = some 0 ∧ hostView s = some s := by
  simp [exitStatus, hostView, h]

theorem host_sees_faulted {s : State} (h : s.execState = .faulted) :
    (∃ n, exitStatus s = some n ∧ n ≠ 0) ∧ hostView s = some s ∧ statusPort s = (.faulted, s.fault) := by
  simp [exitStatus, hostView, statusPort, h]

theorem host_sees_nothing_running {s : State} (h : s.execState = .running) : exitStatus s = none ∧ hostView s = none := by
  simp [exitStatus, hostView, h]

/-- A step leaves Stopped exactly when it executed HLT. -/
theorem step_stops_iff {c : Config} {s t : State} (hs : s.Inv) (hrun : s.execState = .running)
    (h : stepUnder c s = .next t) : t.execState = .stopped ↔ nextInstr c s = .ok .hlt := by
  constructor
  · intro hstop
    have ht : t.execState ≠ .faulted := hstop ▸ nofun
    exact (step_running_false_iff (hs.runningIff.2 hrun) hrun h ht).1 (((hs.of_stepUnder h).running_false_iff ht).2 hstop)
  · intro hn
    cases (stepUnder_of_nextInstr_ok hrun hn).symm.trans h
    rfl

end Sys2Proof.Machine

/-! ### The statements -/

open Sys2Proof.Machine

/-- Settles O15: `running` says which of Stopped and Running a state outside Faulted is in, and HLT's handler alone clears it. -/
theorem onlyHltStopsTheRun : Obligations.OnlyHltStopsTheRun := by
  intro c s t hs hrun h ht
  have hinv := hs.of_stepUnder h
  exact ⟨hinv.running_false_iff ht, hinv.runningIff, step_running_false_iff (hs.runningIff.2 hrun) hrun h ht⟩

/-- Settles O24, by induction on the path from reset: every step and every host request keeps the invariant. -/
theorem reachableStatesMeetInvariant : Obligations.ReachableStatesMeetInvariant := by
  intro c s hs
  induction hs with
  | reset => exact State.reset_inv
  | step _ h ih => exact ih.of_stepUnder h
  | host r _ h ih => exact ih.of_hostMove h

/-- Settles O28: the handler has nothing to raise, and the end of a step keeps the record. -/
theorem wellFormedInstructionsComplete : Obligations.WellFormedInstructionsComplete := by
  intro i s hi _ hs hp
  obtain ⟨s', hok⟩ := handler_ok_of_wellFormed hi hp
  have hcompletes := completes_of_handler_ok hok hs
  exact ⟨_, exec_of_handler_ok hok, hcompletes, (exec_keeps_fault_and_canonical (exec_of_handler_ok hok) hcompletes).1⟩

/-- Settles O48: a step ends in Stopped exactly by HLT, and the host sees each of the three states as R176 and R177 say. -/
theorem runEndsAndStatus : Obligations.RunEndsAndStatus := by
  refine fun c s t hs hrun h => ⟨?_, fun ⟨_, _, hstop⟩ => host_sees_stopped hstop,
    fun ⟨_, _, hfaulted⟩ => host_sees_faulted hfaulted, fun hnorm habn => ?_⟩
  · rw [← step_stops_iff hs hrun h]
    exact ⟨fun ⟨_, _, hstop⟩ => hstop, fun hstop => ⟨hrun, h, hstop⟩⟩
  · have hgoes : t.execState = .running := by
      cases he : t.execState with
      | running => rfl
      | stopped => exact absurd ⟨hrun, h, he⟩ hnorm
      | faulted => exact absurd ⟨hrun, h, he⟩ habn
    exact ⟨hgoes, host_sees_nothing_running hgoes⟩

/-- Settles O29: HLT has no operand to check, and the stop check finds `running` false. -/
theorem hltResult : Obligations.HltResult := exec_hlt

end

section
/-! PROOFS. The ALU (42_alu.md): what it answers and refuses, the whole next state of ADD and MUL, that no step records the ALU's fault,
and that every step keeps the invariant, whose last clause says so. -/

open Sys2Proof

namespace Sys2Proof.Machine

/-! ### What the ALU answers -/

theorem alu_other (id a b : Byte) : alu (.other id) a b = .error .unsupportedAlu := rfl

theorem alu_add (a b : Byte) : alu .add a b = .ok (a + b) := congrArg Except.ok (trunc8_add_toNat a b)

theorem alu_mul (a b : Byte) : alu .mul a b = .ok (a * b) := congrArg Except.ok (trunc8_mul_toNat a b)

theorem applyAlu_other {regA regB : Byte} (ha : regA.toNat < 8) (hb : regB.toNat < 8) (id : Byte) (s : State) :
    applyAlu (.other id) regA regB s = .error .unsupportedAlu := by
  simp only [applyAlu, checkReg_of_lt ha, checkReg_of_lt hb, alu_other, bind, Except.bind]

theorem byte_add_eq_ofNat_mod (a b : Byte) : a + b = BitVec.ofNat 8 ((a.toNat + b.toNat) % 256) := by
  apply BitVec.eq_of_toNat_eq
  simp [BitVec.toNat_add]

theorem byte_mul_eq_ofNat_mod (a b : Byte) : a * b = BitVec.ofNat 8 ((a.toNat * b.toNat) % 256) := by
  apply BitVec.eq_of_toNat_eq
  simp [BitVec.toNat_mul]

/-! ### The whole next state of ADD and MUL -/

/-- An instruction whose handler writes one register, and which does not set PC, changes that register and PC alone. -/
theorem exec_of_handler_writeReg {i : Instr} {s : State} {r : RegIdx} {v : Byte} (h : handler i s = .ok (s.writeReg r v.toNat))
    (hset : i.mnemonic.pcSetting = false) (hrun : s.running = true) :
    exec i s = .next { s with regs := s.regs.set r v, pc := s.pc + BitVec.ofNat 9 (i.mnemonic.operandCount + 1) } := by
  rw [exec_of_handler_ok h, State.stopCheck_of_running (by simpa using hrun)]
  simp [State.advance, hset, State.writeReg]

theorem exec_add {a b : Byte} (ha : a.toNat < 8) (hb : b.toNat < 8) {s : State} (hrun : s.running = true) :
    exec (.add a b) s = .next { s with
      regs := s.regs.set a.toNat (s.reg ⟨a.toNat, ha⟩ + s.reg ⟨b.toNat, hb⟩) ha, pc := s.pc + 3#9 } :=
  exec_of_handler_writeReg (handler_add ha hb s) rfl hrun

theorem exec_mul {a b : Byte} (ha : a.toNat < 8) (hb : b.toNat < 8) {s : State} (hrun : s.running = true) :
    exec (.mul a b) s = .next { s with
      regs := s.regs.set a.toNat (s.reg ⟨a.toNat, ha⟩ * s.reg ⟨b.toNat, hb⟩) ha, pc := s.pc + 3#9 } :=
  exec_of_handler_writeReg (handler_mul ha hb s) rfl hrun

theorem State.toNat_sp_decSp (s : State) : s.decSp.sp.toNat = (s.sp.toNat + 255) % 256 := by
  rw [State.sp_decSp, BitVec.toNat_sub, Nat.add_comm]
  rfl

theorem State.toNat_sp_incSp (s : State) : s.incSp.sp.toNat = (s.sp.toNat + 1) % 256 := by
  rw [State.sp_incSp, BitVec.toNat_add]
  rfl

/-! ### No step records the ALU's fault -/

theorem State.takeFault_code_ne_alu (s : State) {r : Raise} (hr : r ≠ .unsupportedAlu) :
    (s.takeFault r).fault.code ≠ .unsupportedAlu := by
  cases r with
  | unknownOpcode | outOfBounds => exact nofun
  | unsupportedAlu => exact absurd rfl hr

theorem exec_code_ne_alu {i : Instr} {s t : State} (hs : s.fault.code ≠ .unsupportedAlu) (h : exec i s = .next t) :
    t.fault.code ≠ .unsupportedAlu := by
  obtain ⟨s', hok, rfl⟩ | ⟨r, herr, rfl⟩ := exec_eq_next.1 h
  · obtain ⟨hfault, -, -⟩ := handler_keeps hok
    simpa [hfault] using hs
  · exact s.takeFault_code_ne_alu (handler_error_ne_alu herr)

/-- Neither the fetch, nor the decoding, nor a handler raises the ALU's fault (42_alu.md R112). -/
theorem stepUnder_code_ne_alu {c : Config} {s t : State} (hs : s.fault.code ≠ .unsupportedAlu) (h : stepUnder c s = .next t) :
    t.fault.code ≠ .unsupportedAlu := by
  obtain ⟨-, rfl⟩ | ⟨-, r, hn, rfl⟩ | ⟨-, i, -, he⟩ := stepUnder_cases h
  · exact hs
  · exact s.takeFault_code_ne_alu (nextInstr_error_ne_alu hn)
  · exact exec_code_ne_alu hs he

end Sys2Proof.Machine

/-! ### The statements -/

open Sys2Proof.Machine

/-- Settles O23: a step is nothing, a fault of the fetch or the decoding, or an instruction whose bytes lie in memory, and each keeps the
invariant (`State.Inv.of_stepUnder`); `step` is the step of the default configuration. -/
theorem everyStepKeepsInvariant : Obligations.EveryStepKeepsInvariant :=
  ⟨fun _ _ _ hs h => hs.of_stepUnder h, fun _ _ hs h => hs.of_stepUnder (c := Config.default) h⟩

/-- Settles O20: ADD and MUL always have an answer, and they are the only operations that an instruction asks for. -/
theorem unsupportedAluIsUnreachable : Obligations.UnsupportedAluIsUnreachable := by
  refine ⟨alu_other, fun op a b hop => ?_, fun s id ra rb ha hb => applyAlu_other ha hb id s,
    fun c s t hs h => stepUnder_code_ne_alu hs h⟩
  obtain rfl | rfl := hop
  · exact ⟨_, alu_add a b⟩
  · exact ⟨_, alu_mul a b⟩

/-- Settles O32: both handlers write regA alone, and byte arithmetic is arithmetic modulo 256. -/
theorem addMulResult : Obligations.AddMulResult := by
  refine ⟨fun s a b ha hb hrun => ⟨?_, ?_⟩, fun s => ⟨s.toNat_sp_decSp, s.toNat_sp_incSp⟩⟩
  · rw [exec_add ha hb hrun, byte_add_eq_ofNat_mod]
  · rw [exec_mul ha hb hrun, byte_mul_eq_ofNat_mod]

end

section
/-! PROOFS. The stack and the subroutine linkage (43_stack.md, 44_subroutine.md): what PUSH and CALL store and what they keep, what POP
reads, and the whole next state of RET. -/

open Sys2Proof

namespace Sys2Proof.Machine

/-! ### The register operand and the stack pointer -/

theorem regIdx_eq_spIndex {reg : Byte} (h : reg.toNat < 8) : (⟨reg.toNat, h⟩ : RegIdx) = Config.spIndex ↔ reg = 7#8 :=
  Fin.ext_iff.trans (BitVec.toNat_inj (y := 7#8))

/-- A register read after the decrement of SP: only R7 has changed (the spec's decision D22). -/
theorem State.reg_decSp (s : State) {reg : Byte} (h : reg.toNat < 8) :
    s.decSp.reg ⟨reg.toNat, h⟩ = if reg = 7#8 then s.sp - 1#8 else s.reg ⟨reg.toNat, h⟩ := by
  split
  next hsp => rw [(regIdx_eq_spIndex h).2 hsp]; exact s.sp_decSp
  next hsp => exact s.reg_decSp_ne (mt (regIdx_eq_spIndex h).1 hsp)

/-- A register other than R7 keeps what was written to it when SP is then incremented. -/
theorem State.reg_incSp_writeReg_self (s : State) {i : RegIdx} (h : i ≠ Config.spIndex) (v : Byte) :
    (s.writeReg i v.toNat).incSp.reg i = v := by
  rw [State.reg_incSp_ne _ h, State.reg_writeReg_self, trunc8_toNat]

theorem writtenRegs_of_storesByte {i : Instr} (h : storesByte i = true) : writtenRegs i = [7] := by
  cases i with
  | push | call => rfl
  | hlt | ldi | prn | add | mul | pop | ret => cases h

/-! ### The end of a step that goes on -/

/-- After a handler other than HLT's, the end of the step is the PC advance alone. -/
theorem exec_of_handler_goesOn {i : Instr} {s s' : State} (h : handler i s = .ok s') (hi : i ≠ .hlt) (hrun : s.running = true) :
    exec i s = .next (s'.advance i.mnemonic) := by
  obtain ⟨hkeepsRun, -⟩ := handler_status_frame h
  rw [exec_of_handler_ok h, State.stopCheck_of_running (by rw [State.advance_running, hkeepsRun hi, hrun])]

/-- Neither a handler, HLT's and PRN's aside, nor the PC advance writes a status field. -/
theorem handler_advance_status {i : Instr} {s s' : State} (h : handler i s = .ok s') (hi : i ≠ .hlt) (hout : ∀ r, i ≠ .prn r)
    (hrun : s.running = true) :
    (s'.advance i.mnemonic).running = true ∧ (s'.advance i.mnemonic).execState = s.execState ∧
      (s'.advance i.mnemonic).fault = s.fault ∧ (s'.advance i.mnemonic).out = s.out := by
  obtain ⟨hkeepsRun, hkeepsOut⟩ := handler_status_frame h
  obtain ⟨hfault, hstate, -⟩ := handler_keeps h
  simp [hkeepsRun hi, hrun, hstate, hfault, hkeepsOut hout]

/-- A handler that stores a byte at the decremented SP, and the PC advance after it, change that byte of memory and R7 alone. -/
theorem handler_advance_store {i : Instr} {s s' : State} {v : Byte} (h : handler i s = .ok s') (hi : storesByte i = true)
    (hm : s.mem.wf = true) (hset : s'.mem = s.mem.set s.decSp.sp.toNat v) :
    (s'.advance i.mnemonic).memRead (s.sp - 1#8).toNat = .ok v ∧
      (∀ b, b ≠ (s.sp - 1#8).toNat → (s'.advance i.mnemonic).memRead b = s.memRead b) ∧
      (∀ j : RegIdx, j ≠ 7 → (s'.advance i.mnemonic).reg j = s.reg j) := by
  have hset' : (s'.advance i.mnemonic).mem = s.mem.set (s.sp - 1#8).toNat v := by rw [State.advance_mem, hset, State.sp_decSp]
  refine ⟨State.memRead_of_set_self (byte_lt_memSize _) hm hset', fun b hb => State.memRead_of_set_ne hset' hb, fun j hj => ?_⟩
  rw [State.reg_advance]
  exact handler_reg_frame h (by simpa [writtenRegs_of_storesByte hi] using mt Fin.ext hj)

end Sys2Proof.Machine

/-! ### The statements -/

open Sys2Proof.Machine

/-- Settles O33: the push stores the register as the decremented register file gives it. -/
theorem pushResult : Obligations.PushResult := by
  intro s reg h hm hrun
  have hok := handler_push h s
  obtain ⟨hstored, hmem, hregs⟩ := handler_advance_store hok rfl hm rfl
  exact ⟨_, exec_of_handler_goesOn hok nofun hrun, s.sp_decSp, hstored.trans (congrArg _ (s.reg_decSp h)), hmem, hregs, rfl,
    handler_advance_status hok nofun nofun hrun⟩

/-- Settles O34: SP is incremented after the write, so R7 ends at the byte read plus 1 and any other register at the byte. -/
theorem popResult : Obligations.PopResult := by
  intro s reg h hrun
  have hok := handler_pop h s
  refine ⟨_, s.mem.get s.sp.toNat, s.memRead_of_lt (byte_lt_memSize _), exec_of_handler_goesOn hok nofun hrun,
    fun hne => ?_, fun hsp => ?_, fun j hj hjr => ?_, rfl, rfl, handler_advance_status hok nofun nofun hrun⟩
  · have hi := mt (regIdx_eq_spIndex h).1 hne
    exact ⟨s.reg_incSp_writeReg_self hi _, by rw [State.sp_advance, State.sp_incSp, s.sp_writeReg_ne hi]⟩
  · rw [State.sp_advance, State.sp_incSp, (regIdx_eq_spIndex h).2 hsp, State.sp, State.reg_writeReg_self, trunc8_toNat]
  · rw [State.reg_advance]
    exact handler_reg_frame hok (by simpa [writtenRegs, hjr] using mt Fin.ext hj)

/-- Settles O35: the target is read from the register file that the push left, and the jump and the end of the step keep the rest. -/
theorem callResult : Obligations.CallResult := by
  intro s reg h hm hrun hp
  have hok := handler_call h hp
  obtain ⟨hstored, hmem, hregs⟩ := handler_advance_store hok rfl hm rfl
  exact ⟨_, exec_of_handler_goesOn hok nofun hrun, s.sp_decSp, hstored, hmem, hregs,
    (toNat_setWidth_byte _).trans (congrArg BitVec.toNat (s.reg_decSp h)),
    handler_advance_status hok nofun nofun hrun⟩

/-- Settles O37: SP always lies in memory, so the byte can be read; RET sets PC itself, so the advance does nothing. -/
theorem retResult : Obligations.RetResult := by
  refine fun s hrun => ⟨_, s.memRead_of_lt (byte_lt_memSize _), ?_⟩
  rw [exec_of_handler_goesOn (handler_ret s) nofun hrun, ← trunc8_add_one]
  rfl

end

section
/-! PROOFS. Exceptions (60_exceptions.md): the record a fault writes and what it keeps, that a step enters Faulted in this way alone, the
fault of a register index of 8 or more, and what the host can do in Faulted and by a load. -/

open Sys2Proof

namespace Sys2Proof.Machine

/-! ### The fault record -/

@[simp] theorem State.recordFault_pc (s : State) (opcode : Byte) (r : Raise) : (s.recordFault opcode r).pc = s.pc := by
  cases r <;> rfl

@[simp] theorem State.recordFault_opcode (s : State) (opcode : Byte) (r : Raise) : (s.recordFault opcode r).opcode = opcode := by
  cases r <;> rfl

theorem State.recordFault_code_ne_none (s : State) (opcode : Byte) (r : Raise) : (s.recordFault opcode r).code ≠ .none := by
  cases r <;> exact nofun

theorem State.latchedOpcode_of_memRead {s : State} {ir : Byte} (h : s.memRead s.pc.toNat = .ok ir) : s.latchedOpcode = ir := by
  obtain ⟨hp, rfl⟩ := lt_and_eq_of_memRead_ok h
  exact s.latchedOpcode_of_lt hp

/-- Whatever was raised, the record names PC and its byte, or 0 where PC lies beyond memory. -/
theorem State.takeFault_names_pc (s : State) (r : Raise) :
    (s.takeFault r).fault.pc = s.pc ∧ (∀ ir, s.memRead s.pc.toNat = .ok ir → (s.takeFault r).fault.opcode = ir) ∧
      (256 ≤ s.pc.toNat → (s.takeFault r).fault.opcode = 0#8) := by
  rw [State.takeFault_fault, State.recordFault_pc, State.recordFault_opcode]
  exact ⟨rfl, fun _ => State.latchedOpcode_of_memRead, s.latchedOpcode_of_ge⟩

/-! ### Entering Faulted -/

/-- A step that leaves Faulted took a fault from the state it began in: of the fetch, of the decoding, or of the handler. -/
theorem eq_takeFault_of_endsAbnormally {c : Config} {s t : State} (h : EndsAbnormally c s t) : ∃ r, t = s.takeFault r := by
  obtain ⟨hrun, hstep, ht⟩ := h
  obtain ⟨hne, -⟩ | ⟨-, r, -, htaken⟩ | ⟨-, i, -, he⟩ := stepUnder_cases hstep
  · exact absurd hrun hne
  · exact ⟨r, htaken⟩
  · obtain ⟨s', hok, rfl⟩ | ⟨r, -, htaken⟩ := exec_eq_next.1 he
    · exact absurd ht (completes_of_handler_ok hok hrun)
    · exact ⟨r, htaken⟩

theorem exec_of_handler_error {i : Instr} {s : State} {r : Raise} (h : handler i s = .error r) :
    exec i s = .next (s.takeFault r) := exec_eq_next.2 (.inr ⟨r, h, rfl⟩)

/-! ### A register index of 8 or more -/

/-- A failed operand check ends the handler, whatever would follow it. -/
theorem checkReg_bind_of_ge {α : Type} {b : Byte} (h : 8 ≤ b.toNat) (f : RegIdx → Except Raise α) :
    (checkReg b >>= f) = .error (.outOfBounds .register (recordAddr b.toNat)) := by
  rw [checkReg_of_ge h]; rfl

/-- Every instruction with a register operand checks the first one before anything else. -/
theorem handler_of_first_reg_ge {i : Instr} {b : Byte} {bs : List Byte} (hi : i.regOperands = b :: bs) (h : 8 ≤ b.toNat)
    (s : State) : handler i s = .error (.outOfBounds .register (recordAddr b.toNat)) := by
  cases i with
  | hlt | ret => cases hi
  | ldi | prn | add | mul | push | pop | call => cases hi; exact checkReg_bind_of_ge h _

theorem exec_of_first_reg_ge {i : Instr} {b : Byte} {bs : List Byte} (hi : i.regOperands = b :: bs) (h : 8 ≤ b.toNat)
    (s : State) : exec i s = .next (s.takeFault (.outOfBounds .register (recordAddr b.toNat))) :=
  exec_of_handler_error (handler_of_first_reg_ge hi h s)

theorem applyAlu_of_second_reg_ge {a b : Byte} (ha : a.toNat < 8) (hb : 8 ≤ b.toNat) (op : AluOp) (s : State) :
    applyAlu op a b s = .error (.outOfBounds .register (recordAddr b.toNat)) := by
  rw [applyAlu, checkReg_of_lt ha]
  exact checkReg_bind_of_ge hb _

/-! ### The host's requests -/

theorem hostStart_of_not_stopped {s : State} (h : s.execState ≠ .stopped) : hostStart s = s := by
  unfold hostStart
  cases hs : s.execState with
  | running | faulted => rfl
  | stopped => exact absurd hs h

theorem hostLoad_of_not_stopped {s : State} (h : s.execState ≠ .stopped) (a : Addr) (v : Byte) :
    hostLoad a v s = .refused .loadWhileNotStopped := by
  unfold hostLoad
  cases hs : s.execState with
  | running | faulted => rfl
  | stopped => exact absurd hs h

theorem hostLoad_of_lt {s : State} (hs : s.execState = .stopped) {a : Addr} (ha : a.toNat < Config.memSize) (v : Byte) :
    hostLoad a v s = .next { s with mem := s.mem.set a.toNat v } := by
  simp only [hostLoad, hs, s.memWrite_of_lt ha]

theorem hostLoad_of_ge {s : State} (hs : s.execState = .stopped) {a : Addr} (ha : Config.memSize ≤ a.toNat) (v : Byte) :
    hostLoad a v s = .next (s.enterFaulted 0#8 (.outOfBounds .memory a)) := by
  simp only [hostLoad, hs, s.memWrite_of_ge ha, recordAddr_toNat]

/-- In Faulted the start has no effect and a load is refused, so a request that changes the state is a reset. -/
theorem eq_reset_of_hostMove_ne {r : HostRequest} {s t : State} (hs : s.execState = .faulted) (h : hostMove r s = .next t)
    (hne : t ≠ s) : r = .reset := by
  have hs' : s.execState ≠ .stopped := hs ▸ nofun
  cases r with
  | load a v => exact absurd ((hostLoad_of_not_stopped hs' a v).symm.trans h) nofun
  | start =>
    cases h
    exact absurd (hostStart_of_not_stopped hs') hne
  | reset => rfl

end Sys2Proof.Machine

/-! ### The statements -/

open Sys2Proof.Machine

/-- Settles O17: such a step took a fault from the state it began in, and taking a fault keeps all but the record, `running` and the
execution state. -/
theorem faultsArePrecise : Obligations.FaultsArePrecise := by
  intro c s t h
  obtain ⟨r, rfl⟩ := eq_takeFault_of_endsAbnormally h
  exact ⟨rfl, rfl, rfl, rfl, rfl, s.recordFault_code_ne_none _ r, s.takeFault_names_pc r⟩

/-- Settles O18: each of the seven instructions checks its first register operand at once, and the ALU its second one next. -/
theorem registerIndexBeyondSevenFaults : Obligations.RegisterIndexBeyondSevenFaults := by
  intro s r q hr
  have first {i : Instr} {bs : List Byte} (hi : i.regOperands = r :: bs) := exec_of_first_reg_ge hi hr s
  refine ⟨first rfl, first rfl, first rfl, first rfl, first rfl, first rfl, first rfl, fun hq => ⟨?_, ?_⟩⟩
  · exact exec_of_handler_error (applyAlu_of_second_reg_ge hq hr .add s)
  · exact exec_of_handler_error (applyAlu_of_second_reg_ge hq hr .mul s)

/-- Settles O19: in Faulted the core takes no step, a start has no effect and a load is refused. -/
theorem onlyResetLeavesFaulted : Obligations.OnlyResetLeavesFaulted := by
  refine fun c s hs => ⟨fun t h => ?_, ?_, fun r t => eq_reset_of_hostMove_ne hs, rfl⟩
  · cases (stepUnder_of_not_running (hs ▸ nofun)).symm.trans h
    rfl
  · exact congrArg Host.Outcome.next (hostStart_of_not_stopped (hs ▸ nofun))

/-- Settles O45: in Stopped the load is MemWrite, whose bound check decides between the one byte set and the fault. -/
theorem hostLoadWritesOneByte : Obligations.HostLoadWritesOneByte := by
  refine fun s a v => ⟨fun hs ha hm => ?_, fun hs ha => ?_, fun hs => hostLoad_of_not_stopped hs a v⟩
  · exact ⟨_, hostLoad_of_lt hs ha v, State.memRead_of_set_self ha hm rfl, fun b hb => State.memRead_of_set_ne rfl hb, rfl⟩
  · exact ⟨_, hostLoad_of_ge hs ha v, rfl, rfl, rfl, rfl, rfl, rfl, rfl, rfl, rfl⟩

/-- Settles O16: the frame is read off, and each raise writes its own code, OutOfBounds its space and address too. -/
theorem takingAFaultWritesOnlyTheRecord : Obligations.TakingAFaultWritesOnlyTheRecord := by
  intro s r
  obtain ⟨hpc, hopcode, hbeyond⟩ := s.takeFault_names_pc r
  refine ⟨rfl, rfl, rfl, rfl, rfl, rfl, hpc, hopcode, hbeyond, ?_, ?_, ?_⟩
  · rintro rfl; rfl
  · rintro space a rfl; exact ⟨rfl, rfl, rfl⟩
  · rintro rfl; rfl

end

section
/-! PROOFS. Reset, load and start (70_reset_and_hazards.md): the start request in Stopped, where the loader leaves the bytes of an image, and
the boot order made of them. -/

open Sys2Proof

namespace Sys2Proof.Machine

/-! ### Bytes placed in memory -/

theorem Memory.place_cons_of_lt {a : Nat} (ha : a < Config.memSize) (m : Memory) (b : Byte) (bs : List Byte) :
    m.place a (b :: bs) = (m.set a b).place (a + 1) bs := by
  rw [Memory.place, if_pos ha]

theorem Memory.get_place_below {a k : Nat} (hk : k < a) (m : Memory) (bs : List Byte) : (m.place a bs).get k = m.get k := by
  induction bs generalizing m a with
  | nil => rfl
  | cons b bs ih =>
    rw [Memory.place, ih (by omega)]
    split
    · exact Memory.get_set_ne (by omega) m b
    · rfl

/-- At and above `a` the placed bytes come first; past their end memory reads as before. -/
theorem Memory.get_place {a k : Nat} (hak : a ≤ k) (hk : k < Config.memSize) {m : Memory} (hm : m.wf = true) (bs : List Byte) :
    (m.place a bs).get k = bs.getD (k - a) (m.get k) := by
  induction bs generalizing m a with
  | nil => rfl
  | cons b bs ih =>
    have ha : a < Config.memSize := by omega
    rw [Memory.place_cons_of_lt ha]
    obtain rfl | hlt := Nat.eq_or_lt_of_le hak
    · rw [Memory.get_place_below (by omega), Memory.get_set_self a b hm, Nat.sub_self, List.getD_cons_zero]
    · rw [ih hlt (Memory.wf_set ha b hm), Memory.get_set_ne (by omega), show k - a = k - (a + 1) + 1 by omega,
        List.getD_cons_succ]

/-! ### The requests in Stopped -/

theorem hostStart_of_stopped {s : State} (h : s.execState = .stopped) : hostStart s = s.enterRunning := by
  simp only [hostStart, h]

theorem toNat_recordAddr_of_lt {a : Nat} (ha : a < Config.memSize) : (recordAddr a).toNat = a :=
  (BitVec.toNat_ofNat a 9).trans (Nat.mod_eq_of_lt (ha.trans (by decide)))

theorem loadFrom_cons_of_lt {s : State} (hs : s.execState = .stopped) {a : Nat} (ha : a < Config.memSize) (b : Byte)
    (bs : List Byte) : loadFrom a (b :: bs) s = loadFrom (a + 1) bs { s with mem := s.mem.set a b } := by
  have haddr := toNat_recordAddr_of_lt ha
  have hload := hostLoad_of_lt hs (haddr.symm ▸ ha) b
  rw [haddr] at hload
  simp only [loadFrom, hload, hs, if_true]

/-- The load of a first byte beyond memory faults and ends the loader (R173). -/
theorem loadFrom_memSize_cons {s : State} (hs : s.execState = .stopped) (b : Byte) (bs : List Byte) :
    loadFrom Config.memSize (b :: bs) s = .next (s.enterFaulted 0#8 (.outOfBounds .memory 256#9)) := by
  have hload := hostLoad_of_ge hs (a := recordAddr Config.memSize) (by decide) b
  simp only [loadFrom, hload, State.enterFaulted_execState, reduceCtorEq, if_false]
  rfl

/-- The loader places the bytes that fit and goes on with the rest at the address after them. -/
theorem loadFrom_append {s : State} (hs : s.execState = .stopped) {a : Nat} {fits : List Byte}
    (ha : a + fits.length ≤ Config.memSize) (rest : List Byte) :
    loadFrom a (fits ++ rest) s = loadFrom (a + fits.length) rest { s with mem := s.mem.place a fits } := by
  induction fits generalizing a s with
  | nil => rfl
  | cons b bs ih =>
    rw [List.length_cons, Nat.add_comm bs.length, ← Nat.add_assoc] at ha ⊢
    have hlt : a < Config.memSize := by omega
    rw [List.cons_append, loadFrom_cons_of_lt hs hlt, ih (s := { s with mem := s.mem.set a b }) hs ha,
      Memory.place_cons_of_lt hlt]

/-! ### The boot order -/

theorem boot_of_loadFrom {image : List Byte} {t : State} (h : loadFrom 0 image State.reset = .next t) (s : State) :
    boot image s = .next (hostStart t) := by
  simp only [boot, hostReset, h]

theorem boot_of_length_le {image : List Byte} (h : image.length ≤ Config.memSize) (s : State) :
    boot image s = .next { State.reset with mem := Memory.place [] 0 image }.enterRunning := by
  have hload := loadFrom_append (s := State.reset) rfl ((Nat.zero_add _).trans_le h) []
  rw [List.append_nil] at hload
  rw [boot_of_loadFrom hload, hostStart_of_stopped rfl]
  rfl

/-- The first 256 bytes of a longer image are loaded before the next one faults. -/
theorem boot_of_length_gt {image : List Byte} (h : Config.memSize < image.length) (s : State) :
    boot image s = .next ({ State.reset with mem := Memory.place [] 0 (image.take Config.memSize) }.enterFaulted 0#8
      (.outOfBounds .memory 256#9)) := by
  have hlen : (image.take Config.memSize).length = Config.memSize := List.length_take_of_le h.le
  have hload := loadFrom_append (s := State.reset) rfl ((Nat.zero_add _).trans_le hlen.le) (image.drop Config.memSize)
  rw [List.take_append_drop, hlen, Nat.zero_add, List.drop_eq_getElem_cons h, loadFrom_memSize_cons rfl] at hload
  rw [boot_of_loadFrom hload]
  exact congrArg Host.Outcome.next (hostStart_of_not_stopped (by simp))

end Sys2Proof.Machine

/-! ### The statements -/

open Sys2Proof.Machine

/-- Settles O47: an image that fits is placed from 0 in the empty memory, and the load of a 257th byte leaves Faulted, where the start
has no effect. -/
theorem bootLoadsImage : Obligations.BootLoadsImage := by
  refine fun image s => ⟨fun h => ?_, fun h => ?_⟩
  · refine ⟨_, boot_of_length_le h s, rfl, rfl, rfl, rfl, rfl, fun a ha => ?_⟩
    rw [State.memRead_of_lt _ ha, State.enterRunning_mem, Memory.get_place (Nat.zero_le a) ha rfl, Nat.sub_zero, Memory.get_nil]
  · exact ⟨_, boot_of_length_gt h s, rfl, rfl, rfl, rfl⟩

/-- Settles O46: in Stopped the start enters Running, and elsewhere it has no effect. -/
theorem hostStartResumes : Obligations.HostStartResumes :=
  fun _ => ⟨fun h => congrArg Host.Outcome.next (hostStart_of_stopped h),
    fun h => congrArg Host.Outcome.next (hostStart_of_not_stopped h)⟩

end
section
/-! PROOFS. The assembly text (30_encoding.md R71 to R73): what a line's parts are read as, that decimal digits and register names are read
back, and that the text of a well-formed instruction is parsed to it. -/

open Sys2Proof

namespace Sys2Proof.Machine

/-! ### Blanks and commas -/

/-- The text of one operand field as the parser must leave it: not empty, with no blank to trim and no comma to split at. -/
def IsFieldText (t : List Char) : Prop := t ≠ [] ∧ ∀ c ∈ t, isBlank c = false ∧ c ≠ ','

theorem dropWhile_isBlank_of_head {t : List Char} (h : ∀ c ∈ t.head?, isBlank c = false) : t.dropWhile isBlank = t := by
  cases t with
  | nil => rfl
  | cons c t => exact List.dropWhile_cons_of_neg (by simp [h c rfl])

theorem trimBlanks_of_ends {t : List Char} (hhead : ∀ c ∈ t.head?, isBlank c = false)
    (hlast : ∀ c ∈ t.getLast?, isBlank c = false) : trimBlanks t = t := by
  rw [trimBlanks, dropWhile_isBlank_of_head hhead, dropWhile_isBlank_of_head (by rwa [List.head?_reverse]), List.reverse_reverse]

theorem trimBlanks_of_notBlank {t : List Char} (h : ∀ c ∈ t, isBlank c = false) : trimBlanks t = t :=
  trimBlanks_of_ends (fun c hc => h c (List.mem_of_mem_head? hc)) (fun c hc => h c (List.mem_of_getLast? hc))

theorem IsFieldText.trimBlanks_eq {t : List Char} (h : IsFieldText t) : trimBlanks t = t :=
  trimBlanks_of_notBlank fun c hc => (h.2 c hc).1

theorem splitCommas_cons {c : Char} (hc : c ≠ ',') {t f : List Char} {fs : List (List Char)} (h : splitCommas t = f :: fs) :
    splitCommas (c :: t) = (c :: f) :: fs := by
  simp only [splitCommas, h, if_neg hc]

theorem splitCommas_of_noComma {t : List Char} (h : ∀ c ∈ t, c ≠ ',') : splitCommas t = [t] := by
  induction t with
  | nil => rfl
  | cons c t ih => exact splitCommas_cons (h c (by simp)) (ih fun d hd => h d (by simp [hd]))

theorem splitCommas_append_comma {t : List Char} (h : ∀ c ∈ t, c ≠ ',') (rest : List Char) :
    splitCommas (t ++ ',' :: rest) = t :: splitCommas rest := by
  induction t with
  | nil => exact if_pos rfl
  | cons c t ih => exact splitCommas_cons (h c (by simp)) (ih fun d hd => h d (by simp [hd]))

/-! ### A line from its mnemonic and its fields -/

theorem mnemonicText_notBlank (a : Mnemonic) : ∀ c ∈ mnemonicText a, isBlank c = false := by
  cases a <;> simp [mnemonicText, isBlank]

theorem mnemonicText_ne_nil (a : Mnemonic) : mnemonicText a ≠ [] := by
  cases a <;> decide

theorem find_mnemonicText (a : Mnemonic) : (Mnemonic.all.find? fun b => mnemonicText b == mnemonicText a) = some a := by
  cases a <;> decide

/-- A line breaks at the blank behind its mnemonic, and the operand list behind it at its commas. -/
theorem parseLine_of_operandList (a : Mnemonic) {ops : List Char} (hne : ops ≠ []) (hops : ∀ c ∈ ops, isBlank c = false) :
    parseLine (mnemonicText a ++ ' ' :: ops) = parseOperands a ((splitCommas ops).map trimBlanks) := by
  have hname := mnemonicText_notBlank a
  have hline : trimBlanks (mnemonicText a ++ ' ' :: ops) = mnemonicText a ++ ' ' :: ops := by
    refine trimBlanks_of_ends (fun c hc => hname c ?_) (fun c hc => hops c ?_)
    · rw [List.head?_append_of_ne_nil _ (mnemonicText_ne_nil a)] at hc
      exact List.mem_of_mem_head? hc
    · rw [List.getLast?_append_of_ne_nil _ (List.cons_ne_nil _ _), List.getLast?_cons_of_ne_nil hne] at hc
      exact List.mem_of_getLast? hc
  have hspan : (mnemonicText a ++ ' ' :: ops).span (fun c => !isBlank c) = (mnemonicText a, ' ' :: ops) := by
    have hname' : ∀ c ∈ mnemonicText a, (!isBlank c) = true := fun c hc => by rw [hname c hc]; rfl
    rw [List.span_eq_takeWhile_dropWhile, List.takeWhile_append_of_pos hname', List.dropWhile_append_of_pos hname']
    simp [isBlank]
  have htrim : trimBlanks (' ' :: ops) = ops := trimBlanks_of_notBlank hops
  simp only [parseLine, hline, hspan, htrim, if_neg hne, find_mnemonicText]

theorem parseLine_of_one_field (a : Mnemonic) {p : List Char} (hp : IsFieldText p) :
    parseLine (mnemonicText a ++ ' ' :: p) = parseOperands a [p] := by
  rw [parseLine_of_operandList a hp.1 fun c hc => (hp.2 c hc).1, splitCommas_of_noComma fun c hc => (hp.2 c hc).2,
    List.map_singleton, hp.trimBlanks_eq]

theorem parseLine_of_two_fields (a : Mnemonic) {p q : List Char} (hp : IsFieldText p) (hq : IsFieldText q) :
    parseLine (mnemonicText a ++ ' ' :: p ++ ',' :: q) = parseOperands a [p, q] := by
  have hnotBlank : ∀ c ∈ p ++ ',' :: q, isBlank c = false := by
    simp only [List.mem_append, List.mem_cons]
    rintro c (hc | rfl | hc)
    · exact (hp.2 c hc).1
    · rfl
    · exact (hq.2 c hc).1
  rw [List.append_assoc, List.cons_append, parseLine_of_operandList a (by simp) hnotBlank,
    splitCommas_append_comma fun c hc => (hp.2 c hc).2, splitCommas_of_noComma fun c hc => (hq.2 c hc).2,
    List.map_cons, List.map_singleton, hp.trimBlanks_eq, hq.trimBlanks_eq]

/-! ### Digits, immediates and registers -/

theorem digitValue_digitChar {d : Nat} (h : d < 10) : digitValue d.digitChar = some d :=
  (by decide : ∀ d : Fin 10, digitValue (d : Nat).digitChar = some (d : Nat)) ⟨d, h⟩

theorem numberIn_digit {base d : Nat} {c : Char} (hc : digitValue c = some d) (hd : d < base) : numberIn base [c] = some d := by
  simp [numberIn, hc, hd]

theorem numberIn_append_digit {base n d : Nat} {ds : List Char} {c : Char} (hds : numberIn base ds = some n)
    (hc : digitValue c = some d) (hd : d < base) : numberIn base (ds ++ [c]) = some (n * base + d) := by
  cases ds with
  | nil => cases hds
  | cons e es =>
    simp only [numberIn] at hds
    change List.foldl _ _ ((e :: es) ++ [c]) = _
    rw [List.foldl_append, hds]
    simp [hc, hd]

/-- The decimal numeral of a number is read back as that number. -/
theorem numberIn_toDigits (n : Nat) : numberIn 10 (Nat.toDigits 10 n) = some n := by
  induction n using Nat.strongRecOn with
  | ind n ih =>
    by_cases hn : n < 10
    · rw [Nat.toDigits_of_lt_base hn]
      exact numberIn_digit (digitValue_digitChar hn) hn
    · have hlast : n % 10 < 10 := Nat.mod_lt n (by decide)
      rw [Nat.toDigits_of_base_le (by decide) (Nat.not_lt.1 hn),
        numberIn_append_digit (ih (n / 10) (by omega)) (digitValue_digitChar hlast) hlast, Nat.div_add_mod']

/-- A text of decimal digits begins with neither `0x` nor `0b`. -/
theorem parseImmediate_of_digits {t : List Char} (ht : ∀ c ∈ t, c.isDigit = true) {v : Byte}
    (h : numberIn 10 t = some v.toNat) : parseImmediate t = some v := by
  unfold parseImmediate
  split
  · exact absurd (ht 'x' (by simp)) (by decide)
  · exact absurd (ht 'b' (by simp)) (by decide)
  · simp [h, v.isLt]

theorem parseImmediate_toDigits (v : Byte) : parseImmediate (Nat.toDigits 10 v.toNat) = some v :=
  parseImmediate_of_digits (fun _ => Nat.isDigit_of_mem_toDigits (by decide) (by decide)) (numberIn_toDigits v.toNat)

theorem isFieldText_toDigits (n : Nat) : IsFieldText (Nat.toDigits 10 n) := by
  refine ⟨Nat.toDigits_ne_nil, fun c hc => ?_⟩
  have hdigit : c.isDigit = true := Nat.isDigit_of_mem_toDigits (by decide) (by decide) hc
  have hother : ∀ d : Char, d.isDigit = false → c ≠ d := by rintro d hd rfl; simp [hdigit] at hd
  simp [isBlank, hother]

theorem isFieldText_registerText (r : Byte) : IsFieldText (registerText r) := by
  refine ⟨List.cons_ne_nil _ _, ?_⟩
  rw [registerText, List.forall_mem_cons]
  exact ⟨by decide, (isFieldText_toDigits r.toNat).2⟩

theorem parseRegister_registerText {r : Byte} (h : r.toNat < 8) : parseRegister (registerText r) = some r := by
  have hten : r.toNat < 10 := by omega
  rw [registerText, Nat.toDigits_of_lt_base hten]
  simp [parseRegister, digitValue_digitChar hten, Config.nreg, h]

/-! ### An instruction from its text -/

/-- The text of an instruction whose registers exist is read back as that instruction. -/
theorem parseLine_instrText {i : Instr} (h : i.wellFormed = true) : parseLine (instrText i) = some i := by
  have hreg := regOperand_lt_of_wellFormed h
  cases i with
  | hlt | ret => decide
  | prn r | push r | pop r | call r =>
    have hr := parseRegister_registerText (hreg r (by simp [Instr.regOperands]))
    rw [instrText, parseLine_of_one_field _ (isFieldText_registerText r)]
    simp [parseOperands, hr]
  | ldi r v =>
    have hr := parseRegister_registerText (hreg r (by simp [Instr.regOperands]))
    rw [instrText, parseLine_of_two_fields _ (isFieldText_registerText r) (isFieldText_toDigits v.toNat)]
    simp [parseOperands, hr, parseImmediate_toDigits]
  | add p q | mul p q =>
    have hp := parseRegister_registerText (hreg p (by simp [Instr.regOperands]))
    have hq := parseRegister_registerText (hreg q (by simp [Instr.regOperands]))
    rw [instrText, parseLine_of_two_fields _ (isFieldText_registerText p) (isFieldText_registerText q)]
    simp [parseOperands, hp, hq]

end Sys2Proof.Machine

/-! ### The statement -/

open Sys2Proof.Machine

/-- Settles O7: the parser reads the text back, and the assembler encodes what the parser read. -/
theorem assemblyTextRoundTrips : Obligations.AssemblyTextRoundTrips := by
  intro m i hi
  have hparse := parseLine_instrText hi
  exact ⟨hparse, congrArg (Option.map (encode m)) hparse⟩

end

section
/-! PROOFS. The fault record and the output are never read (10_state.md sections 4 and 5): with both replaced, the fetch, each handler, the
end of a step and taking a fault do the same, and so does the step. -/

open Sys2Proof

namespace Sys2Proof.Machine

/-! ### Both replaced -/

/-- The state with another fault record and another output history. -/
def State.withRecordAndOutput (s : State) (f : FaultRecord) (o : List Byte) : State := { s with fault := f, out := o }

/-- From `s`, and from `s` with the output `o`, the steps that ended in `t` and `t'` did the same to all that is read, and appended the
bytes `new`. -/
def EndAlike (s t t' : State) (o new : List Byte) : Prop :=
  t'.mem = t.mem ∧ t'.regs = t.regs ∧ t'.pc = t.pc ∧ t'.running = t.running ∧ t'.execState = t.execState ∧
    t.out = s.out ++ new ∧ t'.out = o ++ new

theorem endAlike_withRecordAndOutput {s t : State} {new : List Byte} (h : t.out = s.out ++ new) (f : FaultRecord) (o : List Byte) :
    EndAlike s t (t.withRecordAndOutput f (o ++ new)) o new := ⟨rfl, rfl, rfl, rfl, rfl, h, rfl⟩

/-- Whatever the two raised, taking a fault keeps memory, registers, PC and output. -/
theorem endAlike_takeFault (s : State) (f : FaultRecord) (o : List Byte) (r r' : Raise) :
    EndAlike s (s.takeFault r) ((s.withRecordAndOutput f o).takeFault r') o [] :=
  ⟨rfl, rfl, rfl, rfl, rfl, (List.append_nil _).symm, (List.append_nil _).symm⟩

theorem nextInstr_withRecordAndOutput (c : Config) (s : State) (f : FaultRecord) (o : List Byte) :
    nextInstr c (s.withRecordAndOutput f o) = nextInstr c s := rfl

theorem advance_withRecordAndOutput (a : Mnemonic) (s : State) (f : FaultRecord) (o : List Byte) :
    (s.withRecordAndOutput f o).advance a = (s.advance a).withRecordAndOutput f o := by
  unfold State.advance; split <;> rfl

theorem stopCheck_withRecordAndOutput (s : State) (f : FaultRecord) (o : List Byte) :
    (s.withRecordAndOutput f o).stopCheck = s.stopCheck.withRecordAndOutput f o := by
  cases hrun : s.running <;> simp [State.stopCheck, State.withRecordAndOutput, hrun]

/-- A handler that answers appends some bytes, and appends them to any other output, with any other record, doing the same to the rest. -/
theorem handler_withRecordAndOutput {i : Instr} {s s' : State} (h : handler i s = .ok s') (f : FaultRecord) (o : List Byte) :
    ∃ new, s'.out = s.out ++ new ∧ handler i (s.withRecordAndOutput f o) = .ok (s'.withRecordAndOutput f (o ++ new)) := by
  have silent {u : State} (hout : u.out = s.out)
      (hu : handler i (s.withRecordAndOutput f o) = .ok (u.withRecordAndOutput f o)) :
      ∃ new, u.out = s.out ++ new ∧ handler i (s.withRecordAndOutput f o) = .ok (u.withRecordAndOutput f (o ++ new)) :=
    ⟨[], by rw [hout, List.append_nil], by rw [hu, List.append_nil]⟩
  have hc := handler_ok_cases h
  cases i with
  | hlt => cases hc; exact silent rfl rfl
  | ldi _ imm => obtain ⟨hr, rfl⟩ := hc; exact silent rfl (handler_ldi hr imm _)
  | prn => obtain ⟨hr, rfl⟩ := hc; exact ⟨_, rfl, handler_prn hr _⟩
  | add => obtain ⟨ha, hb, rfl⟩ := hc; exact silent rfl (handler_add ha hb _)
  | mul => obtain ⟨ha, hb, rfl⟩ := hc; exact silent rfl (handler_mul ha hb _)
  | push => obtain ⟨hr, rfl⟩ := hc; exact silent rfl (handler_push hr _)
  | pop => obtain ⟨hr, rfl⟩ := hc; exact silent rfl (handler_pop hr _)
  | call =>
    obtain ⟨hr, hp, rfl⟩ := hc
    exact silent rfl (handler_call (s := s.withRecordAndOutput f o) hr hp)
  | ret => cases hc; exact silent rfl (handler_ret _)

/-- A handler that raises does so whatever the record and the output are: had it answered with others, it would answer with these. -/
theorem handler_error_withRecordAndOutput {i : Instr} {s : State} {r : Raise} (h : handler i s = .error r) (f : FaultRecord)
    (o : List Byte) : ∃ r', handler i (s.withRecordAndOutput f o) = .error r' := by
  cases h' : handler i (s.withRecordAndOutput f o) with
  | error r' => exact ⟨r', rfl⟩
  | ok u =>
    obtain ⟨_, -, hok⟩ := handler_withRecordAndOutput h' s.fault s.out
    exact absurd (h.symm.trans hok) nofun

theorem exec_withRecordAndOutput {i : Instr} {s t : State} (h : exec i s = .next t) (f : FaultRecord) (o : List Byte) :
    ∃ t' new, exec i (s.withRecordAndOutput f o) = .next t' ∧ EndAlike s t t' o new := by
  obtain ⟨s', hok, rfl⟩ | ⟨r, herr, rfl⟩ := exec_eq_next.1 h
  · obtain ⟨new, hout, hok'⟩ := handler_withRecordAndOutput hok f o
    refine ⟨_, new, exec_of_handler_ok hok', ?_⟩
    rw [advance_withRecordAndOutput, stopCheck_withRecordAndOutput]
    exact endAlike_withRecordAndOutput (by rw [State.stopCheck_out, State.advance_out, hout]) f o
  · obtain ⟨r', herr'⟩ := handler_error_withRecordAndOutput herr f o
    exact ⟨_, [], exec_of_handler_error herr', endAlike_takeFault s f o r r'⟩

theorem stepUnder_withRecordAndOutput {c : Config} {s t : State} (h : stepUnder c s = .next t) (f : FaultRecord) (o : List Byte) :
    ∃ t' new, stepUnder c (s.withRecordAndOutput f o) = .next t' ∧ EndAlike s t t' o new := by
  have hnext := nextInstr_withRecordAndOutput c s f o
  obtain ⟨hs, rfl⟩ | ⟨hs, r, hn, rfl⟩ | ⟨hs, i, hn, he⟩ := stepUnder_cases h
  · exact ⟨_, [], stepUnder_of_not_running hs, by
      simpa using endAlike_withRecordAndOutput (List.append_nil t.out).symm f o⟩
  · exact ⟨_, [], stepUnder_of_nextInstr_error hs (hnext.trans hn), endAlike_takeFault s f o r r⟩
  · rw [stepUnder_of_nextInstr_ok (s := s.withRecordAndOutput f o) hs (hnext.trans hn)]
    exact exec_withRecordAndOutput he f o

end Sys2Proof.Machine

/-! ### The statement -/

open Sys2Proof.Machine

/-- Settles O41: the fetch reads memory and PC, the handlers and the end of a step read no record and no output. -/
theorem outputAndRecordAreNeverRead : Obligations.OutputAndRecordAreNeverRead :=
  fun _ _ _ f o h => stepUnder_withRecordAndOutput h f o

end

section
/-! PROOFS. Two instructions in a row, from the result of each; CALL whose return address does not fit a byte; PRN; and where a run
begins and runs off its program. -/

open Sys2Proof

namespace Sys2Proof.Machine

/-! ### CALL without a return address -/

theorem handler_call_of_ge {reg : Byte} (h : reg.toNat < 8) {s : State} (hp : Config.memSize ≤ s.pc.toNat + 2) :
    handler (.call reg) s = .error (.outOfBounds .memory (recordAddr (s.pc.toNat + 2))) := by
  simp only [handler, checkReg_of_lt h, returnAddress_of_ge s hp, bind, Except.bind]

theorem exec_call_at_254 {reg : Byte} (h : reg.toNat < 8) {s : State} (hp : s.pc.toNat = 254) :
    exec (.call reg) s = .next (s.takeFault (.outOfBounds .memory 256#9)) := by
  have herr := handler_call_of_ge h (s := s) (by simp [Config.memSize, hp])
  rw [hp] at herr
  exact exec_of_handler_error herr

/-- At PC 254 the fetch answers under `ignore` alone. -/
theorem ignore_of_nextInstr_ok {c : Config} {s : State} {i : Instr} (h : nextInstr c s = .ok i) (hp : s.pc.toNat = 254) :
    c.specFetchOob = .ignore := by
  cases hmode : c.specFetchOob with
  | ignore => rfl
  | fault =>
    have herr := nextInstr_of_fetch_error (hmode ▸ fetch_fault_of_last_two (.inl hp))
    exact absurd (h.symm.trans herr) nofun

/-! ### A register file with one register set -/

theorem State.reg_regs_set_self {s t : State} {i : RegIdx} {v : Byte} (h : t.regs = s.regs.set i v) : t.reg i = v := by
  simp [State.reg, h]

end Sys2Proof.Machine

/-! ### The statements -/

open Sys2Proof.Machine

/-- Settles O36: a CALL read lies in memory with its operand, so PC + 2 is beyond memory at PC 254 alone. -/
theorem callReturnAddressFaults : Obligations.CallReturnAddressFaults := by
  refine ⟨fun s reg hr hp => exec_call_at_254 hr hp, fun c s reg hs hn hr hp => ?_⟩
  obtain ⟨hinside, -⟩ := nextInstr_ok_bytes hn
  have hpc : s.pc.toNat = 254 := by
    simp only [Instr.mnemonic, Mnemonic.operandCount, Config.memSize] at hinside
    omega
  exact ⟨hpc, ignore_of_nextInstr_ok hn hpc, (stepUnder_of_nextInstr_ok hs hn).trans (exec_call_at_254 hr hpc)⟩

/-- Settles O31: the handler appends the one byte, and the end of the step advances PC and does not stop. -/
theorem prnResult : Obligations.PrnResult :=
  fun s _ h hrun => exec_of_handler_goesOn (handler_prn h s) nofun hrun

/-- Settles O42, from the results of the two instructions: PRN reads the register that LDI set. -/
theorem ldiThenPrnOutputsImmediate : Obligations.LdiThenPrnOutputsImmediate := by
  intro s r v hr hrun
  refine ⟨_, _, ldiResult s r v hr hrun, prnResult _ r hr hrun, ?_⟩
  rw [State.reg_regs_set_self (s := s) (i := ⟨r.toNat, hr⟩) rfl]

/-- Settles O43, from the results of the two instructions: POP reads at SP the byte PUSH stored there, for R7 the decremented SP itself,
and its increment undoes the decrement. -/
theorem pushThenPopRestoresRegisters : Obligations.PushThenPopRestoresRegisters := by
  intro s r hr hm hrun
  obtain ⟨t, hpush, htsp, htop, -, htregs, htpc, htrun, -⟩ := pushResult s r hr hm hrun
  obtain ⟨u, v, hv, hpop, hother, hseven, huregs, -, hupc, -⟩ := popResult t r hr htrun
  have hpopped : v = if r = 7#8 then s.sp - 1#8 else s.reg ⟨r.toNat, hr⟩ := Except.ok.inj (hv.symm.trans (htsp ▸ htop))
  refine ⟨t, u, hpush, hpop, State.regs_ext fun j => ?_, by rw [hupc, htpc, BitVec.add_assoc]; rfl⟩
  by_cases hj : j = 7
  · subst hj
    change u.sp = s.sp
    by_cases h7 : r = 7#8
    · rw [hseven h7, hpopped, if_pos h7, BitVec.sub_add_cancel]
    · rw [(hother h7).2, htsp, BitVec.sub_add_cancel]
  · by_cases hjr : j.val = r.toNat
    · obtain rfl : j = ⟨r.toNat, hr⟩ := Fin.ext hjr
      have h7 : r ≠ 7#8 := mt (regIdx_eq_spIndex hr).2 hj
      rw [(hother h7).1, hpopped, if_neg h7]
    · rw [huregs j hj hjr, htregs j hj]

/-- Settles O44, from the results of the two instructions: the byte at SP is CALL's PC + 2, and RET's increment undoes CALL's
decrement. -/
theorem callThenRetReturns : Obligations.CallThenRetReturns := by
  intro s t u r hr hm hrun hp hcall hurun husp hubyte
  obtain ⟨_, hcall', htsp, htop, -⟩ := callResult s r hr hm hrun hp
  cases hcall.symm.trans hcall'
  obtain ⟨v, hv, hret⟩ := retResult u hurun
  obtain rfl : v = BitVec.ofNat 8 (s.pc.toNat + 2) := Except.ok.inj ((hv.symm.trans hubyte).trans (htsp ▸ htop))
  refine ⟨_, hret, ?_, ?_⟩
  · rw [toNat_setWidth_byte, BitVec.toNat_ofNat, Nat.mod_eq_of_lt hp]
  · rw [State.sp, State.reg_regs_set_self (s := u) (i := Config.spIndex) rfl, husp, htsp, BitVec.sub_add_cancel]

/-- Settles O12: the fetch latches the byte 0, which the default map gives no mnemonic. -/
theorem unloadedByteIsUnknownOpcode : Obligations.UnloadedByteIsUnknownOpcode := by
  intro s hs hp hbyte
  obtain ⟨-, hzero⟩ := lt_and_eq_of_memRead_ok hbyte
  refine stepUnder_of_lookup_none hs (fetch_of_lt _ s hp) ?_
  rw [← hzero]
  rfl

/-- Settles O22: the reset state meets the invariant (`State.reset_inv`), and its fields are read off. -/
theorem resetMeetsInvariant : Obligations.ResetMeetsInvariant :=
  ⟨State.reset_inv, rfl, rfl, rfl, rfl, rfl, rfl, rfl⟩

end
